-- ==== Sys2Proof/Word.lean ====
section
/-! DEFINITION. The word types of the engine. Bit 0 is the least significant bit of each, and nothing
is signed (00_scope.md R19). -/

namespace Sys2Proof

/-- A stream byte, and one cell of the window (10_state.md R26, 30_encoding.md R68). -/
abbrev Byte := BitVec 8

/-- The width SUMW = 32 of the two running sums is fixed and not configurable (00_scope.md R16). -/
abbrev Word32 := BitVec 32

/-- A command word `CW[9:0]`, and an RC control word `RCW[9:0]` of the same layout
(30_encoding.md R65, R70). -/
abbrev CmdWord := BitVec 10

end Sys2Proof
end

