-- ==== Sys2Proof/Config.lean ====
section
/-! DEFINITION. The configuration of an engine: five constants "fixed at construction" and the open
width OFFW (00_scope.md R10 to R18). A configuration outside the legal ranges cannot be built. -/

namespace Sys2Proof

/-- Candidate parameters, legal or not. -/
structure Params where
  /-- `W`, the number of bytes in the circular window (R10). -/
  windowSize : Nat
  /-- `C`, the additive bias per byte (R11). -/
  charOffset : Nat
  /-- log2 of the target average chunk size (R12). -/
  blobBits : Nat
  /-- The hard cap on chunk length (R13). -/
  maxBlobSize : Nat
  /-- The length a chunk must exceed before a checksum-driven cut is honoured (R14). -/
  tooSmallThreshold : Nat
  /-- OFFW, the width of the stream-offset counter and of a boundary value (R17). -/
  offW : Nat
  deriving DecidableEq, Repr

/-- The legal parameter ranges of 00_scope.md R18. -/
abbrev Params.Legal (p : Params) : Prop :=
  (1 ≤ p.windowSize ∧ p.windowSize ≤ 2 ^ 16) ∧ p.charOffset < 2 ^ 32 ∧ p.blobBits ≤ 32 ∧
    (1 ≤ p.maxBlobSize ∧ p.maxBlobSize < 2 ^ 32) ∧ p.tooSmallThreshold < 2 ^ 32 ∧ 1 ≤ p.offW

/-- A configuration of this hardware: parameters that carry the proof that they are legal. -/
structure Config extends Params where
  legal : toParams.Legal
  deriving DecidableEq, Repr

/-- Elaboration of an engine from candidate parameters. "A configuration outside these ranges is not
a configuration of this hardware and a model refuses it" (R18, U5). -/
def Config.ofParams (p : Params) : Option Config :=
  if h : p.Legal then some ⟨p, h⟩ else none

namespace Config

theorem windowSize_pos (c : Config) : 0 < c.windowSize := c.legal.1.1

theorem maxBlobSize_pos (c : Config) : 0 < c.maxBlobSize := c.legal.2.2.2.1.1

/-- The hardware this spec is about: the defaults of R10 to R14, and OFFW = 64 (R17). -/
def default : Config :=
  ⟨{ windowSize := 64, charOffset := 31, blobBits := 17, maxBlobSize := 1048576,
     tooSmallThreshold := 65536, offW := 64 }, by decide⟩

/-- `BlobSize = 2^BlobBits` (R12). -/
def blobSize (c : Config) : Nat := 2 ^ c.blobBits

/-- `BlobMask = BlobSize - 1`, as a 32-bit vector (R12). -/
def blobMask (c : Config) : Word32 := BitVec.ofNat 32 (c.blobSize - 1)

/-- `SplitMask = BlobMask` (R12). -/
def splitMask (c : Config) : Word32 := c.blobMask

/-- `CURW = max(1, ceil(log2(WindowSize)))`, the bits of the cursor (R17). -/
def curW (c : Config) : Nat := max 1 (if c.windowSize = 1 then 0 else (c.windowSize - 1).log2 + 1)

/-- `LENW`, the bits needed to write MaxBlobSize in binary (R17). -/
def lenW (c : Config) : Nat := c.maxBlobSize.log2 + 1

end Config

end Sys2Proof
end

