-- ==== Sys2Proof/Syntax.lean ====
section
/-! DEFINITION. The commands: one constructor per row of spec/opcode_table.json, and the abstract form
of the assembler notation (30_encoding.md R65, R69, R70, R78, R79). -/

namespace Sys2Proof

/-- The two formats of the opcode table. They have one layout; what differs is the port the word is
presented on: the engine's command port, or the RC unit's control port (R65, R70). -/
inductive Format where
  | cw
  | rcw
  deriving DecidableEq, Repr

/-- The six operations that have an encoding. -/
inductive Instr where
  /-- NOP: no command (41_chunker.md R96). -/
  | nop
  /-- BYTE `b`: the document's `processByte(b, offset)` (41_chunker.md R95). -/
  | byte (b : Byte)
  /-- INIT: create the engine anew for a new stream (41_chunker.md R94). -/
  | init
  /-- RC.HOLD (40_rollsum.md R83). -/
  | rcHold
  /-- RC.ROLL `b`: the document's `roll(byte b)` (40_rollsum.md R82). -/
  | rcRoll (b : Byte)
  /-- RC.INIT: the document's `init()` (40_rollsum.md R81). -/
  | rcInit
  deriving DecidableEq, Repr

/-- The format of an operation's row in the opcode table. -/
def Instr.format : Instr → Format
  | .nop => .cw
  | .byte _ => .cw
  | .init => .cw
  | .rcHold => .rcw
  | .rcRoll _ => .rcw
  | .rcInit => .rcw

/-- One line of the assembler notation (R78) or a pseudo-instruction (R79), with its operands as the
numbers written. An operand may be out of range here; `AsmLine.wellFormed` tells. -/
inductive AsmLine where
  /-- An empty or comment-only line. -/
  | blank
  | nop
  | init
  | byte (n : Nat)
  /-- `REP n, BYTE v`. -/
  | rep (n v : Nat)
  /-- `ZEROS n`. -/
  | zeros (n : Nat)
  /-- `BYTES "text"`. -/
  | bytes (text : List Char)
  /-- `STREAM b0 b1 b2 …`. -/
  | stream (bs : List Nat)
  /-- `IDLE n`. -/
  | idle (n : Nat)
  deriving DecidableEq, Repr

end Sys2Proof
end

