-- ==== Sys2Proof/WellFormed.lean ====
section
/-! DEFINITION. What is well formed: an operation on the port it is presented on, and the operands of a
line of assembler notation. -/

namespace Sys2Proof

/-- An operation is well formed on a port when its row has that port's format: no RC operation can be
commanded by the producer, and no engine command reaches the RC unit's control port as such
(10_state.md R32, 30_encoding.md R70, R71). -/
def Instr.wellFormed (port : Format) (i : Instr) : Bool := i.format = port

/-- A number that one `data` field can carry (30_encoding.md R68, R78). -/
def inByteRange (n : Nat) : Bool := n ≤ 255

/-- A character that has an ASCII code (R78, R79). -/
def isAscii (ch : Char) : Bool := ch.toNat < 128

/-- "An operand outside 0 to 255 is an assembly error" (R78). Repetition counts are unbounded (R79). -/
def AsmLine.wellFormed : AsmLine → Bool
  | .blank => true
  | .nop => true
  | .init => true
  | .byte n => inByteRange n
  | .rep _ v => inByteRange v
  | .zeros _ => true
  | .bytes text => text.all isAscii
  | .stream bs => bs.all inByteRange
  | .idle _ => true

end Sys2Proof
end

