-- ==== Sys2Proof/Decode.lean ====
section
/-! DEFINITION. The decoder, total on every 10-bit word, and the encoder (30_encoding.md R65 to R73). -/

namespace Sys2Proof

/-- Field `v`, bit 9: a command is present (R65, R66). -/
def vField (w : CmdWord) : Bool := w.getLsbD 9

/-- Field `op`, bit 8: BYTE or INIT (R65, R67). -/
def opField (w : CmdWord) : Bool := w.getLsbD 8

/-- Field `data`, bits 7 to 0 (R65, R68). -/
def dataField (w : CmdWord) : Byte := w.extractLsb' 0 8

/-- The command a word on the engine's command port stands for (R69). -/
def decodeCw (w : CmdWord) : Instr :=
  if vField w = false then .nop
  else if opField w = false then .byte (dataField w)
  else .init

/-- The operation a word on the RC unit's control port stands for (R70). -/
def decodeRcw (w : CmdWord) : Instr :=
  if vField w = false then .rcHold
  else if opField w = false then .rcRoll (dataField w)
  else .rcInit

/-- The operation a word stands for on a port of the given format. -/
def decodeOn : Format → CmdWord → Instr
  | .cw, w => decodeCw w
  | .rcw, w => decodeRcw w

/-- Why a number is no command word. -/
inductive DecodeError where
  /-- The number needs more than the 10 bits of a command word (R65, R77). -/
  | widerThanCommandWord
  deriving DecidableEq, Repr

/-- Decode a number presented as a word on the command port. Every 10-bit word decodes (R69); a wider
number is no command word at all. -/
def decodeWord (w : Nat) : Except DecodeError Instr :=
  if w < 2 ^ 10 then .ok (decodeCw (BitVec.ofNat 10 w)) else .error .widerThanCommandWord

/-- The instruction the decoder reads from a table row's bits. One word stands for a CW row on the
command port and for an RCW row on the RC unit's control port (R70, R71). The engine's only command
port is the CW one (R76), so the CW row is the answer: log entry 3. -/
def decodeTableWord (_nbits w : Nat) : Option Instr :=
  match decodeWord w with
  | .ok i => some i
  | .error _ => none

/-- The canonical word of an operation: ignored bits are zero (R73). -/
def encode : Instr → CmdWord
  | .nop => 0x000#10
  | .byte b => 0x200#10 + b.setWidth 10
  | .init => 0x300#10
  | .rcHold => 0x000#10
  | .rcRoll b => 0x200#10 + b.setWidth 10
  | .rcInit => 0x300#10

/-- A row of the opcode table: the words `w` with `(w AND mask) == match` on one port (R69, R70). -/
structure OpcodeRow where
  format : Format
  mask : CmdWord
  value : CmdWord
  deriving DecidableEq, Repr

/-- Whether a word selects a row. -/
def OpcodeRow.selects (r : OpcodeRow) (w : CmdWord) : Bool := w &&& r.mask = r.value

/-- The row of spec/opcode_table.json that an operation belongs to. -/
def Instr.row : Instr → OpcodeRow
  | .nop => ⟨.cw, 0x200#10, 0x000#10⟩
  | .byte _ => ⟨.cw, 0x300#10, 0x200#10⟩
  | .init => ⟨.cw, 0x300#10, 0x300#10⟩
  | .rcHold => ⟨.rcw, 0x200#10, 0x000#10⟩
  | .rcRoll _ => ⟨.rcw, 0x300#10, 0x200#10⟩
  | .rcInit => ⟨.rcw, 0x300#10, 0x300#10⟩

/-- The whole opcode table, CW rows first. -/
def opcodeTable : List OpcodeRow :=
  [Instr.row .nop, Instr.row (.byte 0), Instr.row .init,
   Instr.row .rcHold, Instr.row (.rcRoll 0), Instr.row .rcInit]

end Sys2Proof
end

