-- ==== Sys2Proof/Machine/State.lean ====
section
/-! DEFINITION. The state: the six architectural items of 10_state.md R25, the read-only configuration
block of R39, and what stands at the ports: the boundary event of the last step, the consumer's record
of events, and the producer's port inputs still to come. Plain data. -/

namespace Sys2Proof.Machine

/-- The window space: the cells that do not read as `unlistedByte`, by index (20_memory.md R51, R59). -/
abbrev Memory := List Host.Cell

/-- What a cell reads as that is not listed: the window resets to 0x00 (10_state.md R45, 20_memory.md R59). -/
def unlistedByte : Byte := 0x00#8

/-- The canonical form: indices strictly rising, and no listed cell equal to `unlistedByte`. Equal
windows are then equal lists. -/
abbrev Memory.wf (m : Memory) : Prop :=
  m.Pairwise (fun x y => x.1 < y.1) ∧ ∀ x ∈ m, x.2 ≠ unlistedByte

/-- Only cells that exist are listed: indices `0 … W - 1` (20_memory.md R51). -/
abbrev Memory.within (w : Nat) (m : Memory) : Prop := ∀ x ∈ m, x.1 < w

/-- A boundary value, an OFFW-bit unsigned integer (30_encoding.md R74). -/
abbrev Boundary (c : Config) := BitVec c.offW

/-- The state of the RC unit (10_state.md R26 to R29). -/
structure RcUnit (c : Config) where
  /-- `WINDOW[0 … W-1]`. -/
  window : Memory
  /-- `CURSOR`, in `[0, WindowSize)` by its type (R27, R50). -/
  cursor : Fin c.windowSize
  /-- `S1`, the running sum. -/
  s1 : Word32
  /-- `S2`, the running weighted sum. -/
  s2 : Word32
  deriving DecidableEq, Repr

/-- The complete architectural state of the engine: six items (R25). -/
structure Engine (c : Config) where
  /-- The RC unit, "owned exclusively by Chunker" (R32). -/
  rc : RcUnit c
  /-- `CURLEN`, bytes since the last boundary (R30). -/
  curLen : BitVec c.lenW
  /-- `GOFF`, the offset of the next byte (R31). -/
  gOff : BitVec c.offW
  deriving DecidableEq, Repr

/-- What the input ports carry at one step: `rst`, and the command word made of `cmd_valid`, `cmd_op`
and `cmd_data` (30_encoding.md R76). -/
structure PortInput where
  rst : Bool
  cw : CmdWord
  deriving DecidableEq, Repr

/-- The machine at its ports. -/
structure State where
  /-- The read-only configuration block (10_state.md R39); no step changes it (00_scope.md R15). -/
  cfg : Config
  /-- The architectural state (R25). -/
  eng : Engine cfg
  /-- The boundary event of the last step: `bnd_valid` and `bnd_offset`
  (00_scope.md R22, R24, 70_reset_and_hazards.md R145). -/
  bnd : Option (Boundary cfg)
  /-- The consumer's record of all events, oldest first: the observation of R24. Nothing reads it. -/
  observed : List (Boundary cfg)
  /-- The port inputs of the coming steps, next first; when it is empty the producer presents no
  command (60_exceptions.md R128). -/
  pending : List PortInput
  deriving DecidableEq, Repr

/-- The engine has no fault: "The complete table of exception causes is empty" (60_exceptions.md R114,
R129). No constructor, so no meaning can raise one; safe, since there is nothing to hide behind it. -/
inductive Fault where
  deriving DecidableEq, Repr

/-- The reasons a step is refused. No step of this model is (60_exceptions.md R129). -/
inductive Refusal where
  /-- Raised by an arm of `exec` that has no meaning yet; no arm is left so. Safe: the run stops. -/
  | notModelled (mnemonic : String)
  deriving DecidableEq, Repr

/-- The reset state of the RC unit, from the table of 10_state.md R45. -/
def RcUnit.reset (c : Config) : RcUnit c :=
  { window := []
    cursor := ⟨0, c.windowSize_pos⟩
    s1 := BitVec.ofNat 32 (c.windowSize * c.charOffset)
    s2 := BitVec.ofNat 32 (c.windowSize * (c.windowSize - 1) * c.charOffset) }

/-- The reset state of the engine, from the table of 10_state.md R45. -/
def Engine.reset (c : Config) : Engine c := { rc := RcUnit.reset c, curLen := 0, gOff := 0 }

/-- An engine of a given configuration right after reset, with nothing presented and nothing observed. -/
def State.resetOf (c : Config) : State :=
  { cfg := c, eng := Engine.reset c, bnd := none, observed := [], pending := [] }

/-- The machine right after reset: the default configuration (00_scope.md section 4) in its reset state. -/
def State.reset : State := State.resetOf Config.default

end Sys2Proof.Machine
end

