-- ==== Sys2Proof/Machine/Ops.lean ====
section
/-! DEFINITION. The named operations over the window, the registers and the ports. There is no
exception to take and none to return from (60_exceptions.md R114, R121, R122), so no operation here
does either; reset, the one event that overrides a command (R120), is `State.takeReset`. -/

namespace Sys2Proof.Machine

/-- The content of a cell (00_scope.md R21, `MemRead`). -/
def Memory.read : Memory → Nat → Byte
  | [], _ => unlistedByte
  | (x, v) :: m, i => if x = i then v else Memory.read m i

/-- The window without any entry for a cell. -/
def Memory.erase (m : Memory) (i : Nat) : Memory := m.filter (fun cell => cell.1 ≠ i)

/-- The window with one more entry, in its place by index. -/
def Memory.insert : Memory → Nat → Byte → Memory
  | [], i, v => [(i, v)]
  | (x, u) :: m, i, v => if i < x then (i, v) :: (x, u) :: m else (x, u) :: Memory.insert m i v

/-- Replace the content of a cell (00_scope.md R21, `MemWrite`), keeping the canonical form. -/
def Memory.write (m : Memory) (i : Nat) (v : Byte) : Memory :=
  if v = unlistedByte then Memory.erase m i else Memory.insert (Memory.erase m i) i v

/-- The window with 0x00 in every cell: what the W writes of RC.INIT leave (20_memory.md R56,
40_rollsum.md R81). -/
def Memory.zeros : Memory := []

/-- `mod32`: the unique representative modulo 2^32 of an exact integer (00_scope.md R20). -/
def mod32 (n : Int) : Word32 := BitVec.ofInt 32 n

/-- `MemRead(i, 1)` on the window; the index type holds exactly the cells that exist (R51). -/
def RcUnit.memRead {c : Config} (r : RcUnit c) (i : Fin c.windowSize) : Byte :=
  Memory.read r.window i.val

/-- `MemWrite(i, 1, v)` on the window. -/
def RcUnit.memWrite {c : Config} (r : RcUnit c) (i : Fin c.windowSize) (v : Byte) : RcUnit c :=
  { r with window := Memory.write r.window i.val v }

/-- `(i + 1) mod WindowSize` (20_memory.md R51, 40_rollsum.md R82, R88). -/
def nextCell {c : Config} (i : Fin c.windowSize) : Fin c.windowSize :=
  ⟨(i.val + 1) % c.windowSize, Nat.mod_lt _ c.windowSize_pos⟩

/-- An RC operation changes the RC unit and nothing else: no Chunker state, no event (40_rollsum.md R92). -/
def State.withRc (s : State) (r : RcUnit s.cfg) : State := { s with eng := { s.eng with rc := r } }

/-- A command takes effect as one transition: its new engine state, and its event or the absence of
one (00_scope.md R22, R24, 20_memory.md R57). The consumer records the event. -/
def State.commit (s : State) (r : Engine s.cfg × Option (Boundary s.cfg)) : State :=
  { s with eng := r.1, bnd := r.2, observed := s.observed ++ r.2.toList }

/-- The reset state, whatever the state before; no event (70_reset_and_hazards.md R130). -/
def State.takeReset (s : State) : State := { s with eng := Engine.reset s.cfg, bnd := none }

/-- The ports when the producer presents nothing: `rst = 0`, `cmd_valid = 0` (60_exceptions.md R128). -/
def PortInput.idle : PortInput := { rst := false, cw := 0x000#10 }

/-- The ports of a step at which the producer presents a command word. -/
def PortInput.command (w : CmdWord) : PortInput := { rst := false, cw := w }

/-- What the ports carry at the next step. -/
def State.portInput (s : State) : PortInput := s.pending.headD PortInput.idle

/-- The producer moves on: the input of this step is used up, executed or discarded. -/
def State.dropInput (s : State) : State := { s with pending := s.pending.tail }

/-- The producer presents an input ahead of those still pending. -/
def State.present (s : State) (p : PortInput) : State := { s with pending := p :: s.pending }

end Sys2Proof.Machine
end

