-- ==== Sys2Proof/Machine/Operands.lean ====
section
/-! DEFINITION. The operands of the operations: zero extension, the addressed cell, the offset, and
which `s1` the `s2` update reads. -/

namespace Sys2Proof.Machine

/-- A vector as the unsigned integer it denotes; "every byte that enters a 32-bit computation is
zero-extended", nothing is signed (00_scope.md R19, R20, 30_encoding.md R68). -/
def uint {n : Nat} (v : BitVec n) : Int := (v.toNat : Int)

/-- The effective address of the load and of the store of RC.ROLL: CURSOR, unmodified
(40_rollsum.md R89). -/
def RcUnit.effectiveCell {c : Config} (r : RcUnit c) : Fin c.windowSize := r.cursor

/-- The byte leaving the window in a roll: `window[cursor]` before it is overwritten
(00_scope.md glossary, 40_rollsum.md R82). -/
def RcUnit.drop {c : Config} (r : RcUnit c) : Byte := r.memRead r.effectiveCell

/-- The named reading of decision D10: of the `s1` before the roll and the `s1` the roll has just
written, the `s2` update reads the new one (40_rollsum.md R85). The alternative that was set aside
reads the old one; log entry 7. -/
def s1ReadByS2 (_old new : Word32) : Word32 := new

/-- The `offset` argument of `processByte`, supplied from GOFF before its increment
(41_chunker.md R100). -/
def Engine.offset {c : Config} (e : Engine c) : Boundary c := e.gOff

end Sys2Proof.Machine
end

