-- ==== Sys2Proof/Machine/Flags.lean ====
section
/-! DEFINITION. The predicate SPLIT, the size gates, the boundary condition, and the two implicit
states of the boundary-decision state machine. The engine has no stored flag (10_state.md R33). -/

namespace Sys2Proof.Machine

/-- `SPLIT = ((S2 AND BlobMask) == SplitMask)`, the document's `isSplitCandidate()` (40_rollsum.md R84). -/
def splitOf (c : Config) (s2 : Word32) : Bool := s2 &&& c.blobMask = c.splitMask

/-- RC.SPLIT: the RC unit's continuously driven output `split` (30_encoding.md R80). -/
def RcUnit.split {c : Config} (r : RcUnit c) : Bool := splitOf c r.s2

/-- The maximum size gate: an equality test (41_chunker.md R97). -/
def maxGate (c : Config) (len : BitVec c.lenW) : Bool := len.toNat = c.maxBlobSize

/-- The minimum size gate: a strict greater-than test (41_chunker.md R97, 90_conflicts.md C6). -/
def minGate (c : Config) (len : BitVec c.lenW) : Bool := c.tooSmallThreshold < len.toNat

/-- The boundary condition, on the incremented CURLEN and SPLIT of the new S2 (41_chunker.md R97, R98). -/
def boundaryCondition (c : Config) (len : BitVec c.lenW) (onSplit : Bool) : Bool :=
  maxGate c len || (onSplit && minGate c len)

/-- The two implicit states, "collapsed into one counter" (10_state.md R37). -/
inductive Phase where
  | justClosed
  | accumulating
  deriving DecidableEq, Repr

/-- Just-closed when `CURLEN == 0`, accumulating when `CURLEN > 0` (10_state.md R37). -/
def Engine.phase {c : Config} (e : Engine c) : Phase :=
  if e.curLen.toNat = 0 then .justClosed else .accumulating

end Sys2Proof.Machine
end

