-- ==== Sys2Proof/Machine/RollSum.lean ====
section
/-! DEFINITION. The operations of the RollingChecksum unit (40_rollsum.md). -/

namespace Sys2Proof.Machine

/-- RC.INIT: every cell 0x00, CURSOR 0, `S1 = mod32(W·C)`, `S2 = mod32(W·(W-1)·C)`; it reads no
state (40_rollsum.md R81). -/
def RcUnit.init {c : Config} (_r : RcUnit c) : RcUnit c :=
  { window := Memory.zeros
    cursor := ⟨0, c.windowSize_pos⟩
    s1 := mod32 (c.windowSize * c.charOffset)
    s2 := mod32 (c.windowSize * (c.windowSize - 1) * c.charOffset) }

/-- RC.ROLL `b`: the five statements of 40_rollsum.md R82 in their order. The window is read before it
is written (20_memory.md R56) and `S2` reads the new `S1` (R85). -/
def RcUnit.roll {c : Config} (b : Byte) (r : RcUnit c) : RcUnit c :=
  let drop := r.drop
  let s1 := mod32 (uint r.s1 + uint b - uint drop)
  let s2 := mod32 (uint r.s2 + uint (s1ReadByS2 r.s1 s1) -
    c.windowSize * (uint drop + c.charOffset))
  let stored := r.memWrite r.effectiveCell b
  { stored with cursor := nextCell r.cursor, s1 := s1, s2 := s2 }

/-- RC.HOLD: WINDOW, CURSOR, S1 and S2 keep their values (40_rollsum.md R83). -/
def RcUnit.hold {c : Config} (r : RcUnit c) : RcUnit c := r

/-- RC.INIT on the machine (40_rollsum.md R81, R92). -/
def execRcInit (s : State) : Host.Outcome State Fault Refusal := .next (s.withRc s.eng.rc.init)

/-- RC.ROLL on the machine (40_rollsum.md R82, R92). -/
def execRcRoll (b : Byte) (s : State) : Host.Outcome State Fault Refusal :=
  .next (s.withRc (s.eng.rc.roll b))

/-- RC.HOLD on the machine (40_rollsum.md R83, R92). -/
def execRcHold (s : State) : Host.Outcome State Fault Refusal := .next (s.withRc s.eng.rc.hold)

end Sys2Proof.Machine
end

