-- ==== Sys2Proof/Machine/Chunker.lean ====
section
/-! DEFINITION. The three commands of the boundary-decision state machine (41_chunker.md). Each forwards
its word to the RC unit (30_encoding.md R71), so each performs its RC operation within the same step. -/

namespace Sys2Proof.Machine

/-- NOP: RC.HOLD; CURLEN and GOFF keep their values; no event (41_chunker.md R96). -/
def Engine.nop {c : Config} (e : Engine c) : Engine c × Option (Boundary c) :=
  ({ e with rc := e.rc.hold }, none)

/-- BYTE `b`: the document's four steps, then the offset counter (41_chunker.md R95). The condition
uses the incremented CURLEN and SPLIT after the roll; the emitted value is GOFF before its increment. -/
def Engine.byte {c : Config} (b : Byte) (e : Engine c) : Engine c × Option (Boundary c) :=
  let len := e.curLen + 1#c.lenW
  let rc := e.rc.roll b
  let cut := boundaryCondition c len rc.split
  ({ rc := rc, curLen := if cut then 0#c.lenW else len, gOff := e.gOff + 1#c.offW },
   if cut then some e.offset else none)

/-- INIT: RC.INIT, then CURLEN and GOFF 0; no event (41_chunker.md R94). -/
def Engine.init {c : Config} (e : Engine c) : Engine c × Option (Boundary c) :=
  ({ rc := e.rc.init, curLen := 0#c.lenW, gOff := 0#c.offW }, none)

/-- NOP on the machine (41_chunker.md R96). -/
def execNop (s : State) : Host.Outcome State Fault Refusal := .next (s.commit s.eng.nop)

/-- BYTE on the machine (41_chunker.md R95). -/
def execByte (b : Byte) (s : State) : Host.Outcome State Fault Refusal := .next (s.commit (s.eng.byte b))

/-- INIT on the machine (41_chunker.md R94). -/
def execInit (s : State) : Host.Outcome State Fault Refusal := .next (s.commit s.eng.init)

end Sys2Proof.Machine
end

