-- ==== Sys2Proof/Machine/Dispatch.lean ====
section
/-! DEFINITION. One arm per constructor of Instr. -/

namespace Sys2Proof.Machine

/-- The meaning of each operation. -/
def exec (i : Instr) (s : State) : Host.Outcome State Fault Refusal :=
  match i with
  | .nop => Sys2Proof.Machine.execNop s
  | .byte b => Sys2Proof.Machine.execByte b s
  | .init => Sys2Proof.Machine.execInit s
  | .rcHold => Sys2Proof.Machine.execRcHold s
  | .rcRoll b => Sys2Proof.Machine.execRcRoll b s
  | .rcInit => Sys2Proof.Machine.execRcInit s

end Sys2Proof.Machine
end

