-- ==== Sys2Proof/Machine/Step.lean ====
section
/-! DEFINITION. One step: the ports are sampled, and either reset overrides or the command word is
executed (00_scope.md R24, 60_exceptions.md R120). -/

namespace Sys2Proof.Machine

/-- One step of the machine. With `rst = 1` the command word is discarded and the reset state taken
(70_reset_and_hazards.md R130); otherwise the decoded command is executed to completion (10_state.md R38). -/
def step (s : State) : Host.Outcome State Fault Refusal :=
  if s.portInput.rst then .next s.dropInput.takeReset else exec (decodeCw s.portInput.cw) s.dropInput

/-- The producer presents the 10-bit command word `w` at the very next step. A number wider than a
command word cannot be presented (log entry 10). -/
def State.withFetchWord (s : State) (_nbits w : Nat) : State :=
  if w < 2 ^ 10 then s.present (PortInput.command (BitVec.ofNat 10 w)) else s

end Sys2Proof.Machine
end

