-- ==== Sys2Proof/Machine/Assembler.lean ====
section
/-! DEFINITION. The assembler notation: a line of text, its abstract form, and the command words it
stands for (30_encoding.md R78, R79). Notation only; the engine sees the words. The lexical points
the spec leaves open are log entry 11. -/

namespace Sys2Proof.Machine

/-- Why the assembler refuses a line; it then produces no command word (R78). -/
inductive AsmError where
  /-- The line is not of a form of R78 or R79. -/
  | malformedLine
  /-- An operand is outside 0 to 255, or a character has no ASCII code. -/
  | operandOutOfRange
  deriving DecidableEq, Repr

/-- The expansion of a line into operations (R78, R79). -/
def expandLine : AsmLine → List Instr
  | .blank => []
  | .nop => [.nop]
  | .init => [.init]
  | .byte n => [.byte (BitVec.ofNat 8 n)]
  | .rep n v => List.replicate n (.byte (BitVec.ofNat 8 v))
  | .zeros n => List.replicate n (.byte 0x00#8)
  | .bytes text => text.map (fun ch => .byte (BitVec.ofNat 8 ch.toNat))
  | .stream bs => bs.map (fun n => .byte (BitVec.ofNat 8 n))
  | .idle n => List.replicate n .nop

/-- The command words of a line, or the refusal of an operand out of range (R78). -/
def assembleLine (l : AsmLine) : Except AsmError (List CmdWord) :=
  if l.wellFormed then .ok ((expandLine l).map encode) else .error .operandOutOfRange

/-- The marks of the notation. -/
abbrev commentMark : Char := Char.ofNat 0x3B
abbrev commaMark : Char := Char.ofNat 0x2C
abbrev singleQuote : Char := Char.ofNat 0x27
abbrev doubleQuote : Char := Char.ofNat 0x22
abbrev spaceMark : Char := Char.ofNat 0x20
abbrev tabMark : Char := Char.ofNat 0x09

/-- A lexical unit of a line. -/
inductive Token where
  | word (text : List Char)
  | comma
  | text (text : List Char)
  | char (ch : Char)
  deriving DecidableEq, Repr

/-- Where the lexer stands; what it has read of a unit is kept in reverse. -/
inductive LexMode where
  | gap
  | inWord (read : List Char)
  | inText (read : List Char)
  | charOpen
  | charClose (ch : Char)
  deriving DecidableEq, Repr

/-- Cut a line into its units; the comment mark outside quotes starts a comment (R78). `none` is an
unclosed or misplaced quote. -/
def lex : LexMode → List Char → Option (List Token)
  | .gap, [] => some []
  | .inWord read, [] => some [.word read.reverse]
  | .inText _, [] => none
  | .charOpen, [] => none
  | .charClose _, [] => none
  | .gap, ch :: rest =>
    if ch = commentMark then some []
    else if ch = spaceMark ∨ ch = tabMark then lex .gap rest
    else if ch = commaMark then (lex .gap rest).map (Token.comma :: ·)
    else if ch = doubleQuote then lex (.inText []) rest
    else if ch = singleQuote then lex .charOpen rest
    else lex (.inWord [ch]) rest
  | .inWord read, ch :: rest =>
    if ch = commentMark then some [.word read.reverse]
    else if ch = spaceMark ∨ ch = tabMark then (lex .gap rest).map (Token.word read.reverse :: ·)
    else if ch = commaMark then
      (lex .gap rest).map (fun ts => Token.word read.reverse :: Token.comma :: ts)
    else if ch = doubleQuote ∨ ch = singleQuote then none
    else lex (.inWord (ch :: read)) rest
  | .inText read, ch :: rest =>
    if ch = doubleQuote then (lex .gap rest).map (Token.text read.reverse :: ·)
    else lex (.inText (ch :: read)) rest
  | .charOpen, ch :: rest => lex (.charClose ch) rest
  | .charClose ch, close :: rest =>
    if close = singleQuote then (lex .gap rest).map (Token.char ch :: ·) else none

/-- The value of a digit in a base up to 16. -/
def digitValue (base : Nat) (ch : Char) : Option Nat :=
  let n := ch.toNat
  let v := if 0x30 ≤ n ∧ n ≤ 0x39 then some (n - 0x30)
    else if 0x41 ≤ n ∧ n ≤ 0x46 then some (n - 0x41 + 10)
    else if 0x61 ≤ n ∧ n ≤ 0x66 then some (n - 0x61 + 10)
    else none
  v.filter (· < base)

/-- A non-empty digit string, most significant digit first. -/
def digitsValue (base : Nat) : Option Nat → List Char → Option Nat
  | acc, [] => acc
  | acc, ch :: rest =>
    match digitValue base ch with
    | some v => digitsValue base (some (acc.getD 0 * base + v)) rest
    | none => none

/-- A number "written decimal (`65`), hexadecimal (`0x41`)" (R78). -/
def numeral : List Char → Option Nat
  | '0' :: 'x' :: digits => digitsValue 16 none digits
  | digits => digitsValue 10 none digits

/-- The operand of BYTE: a number "or … a character in single quotes" (R78). -/
def byteOperand : Token → Option Nat
  | .word w => numeral w
  | .char ch => some (if isAscii ch then ch.toNat else 256)
  | .comma => none
  | .text _ => none

/-- A count, or a number of a STREAM (R79). -/
def numberOperand : Token → Option Nat
  | .word w => numeral w
  | .char _ => none
  | .comma => none
  | .text _ => none

/-- The line a mnemonic and its operand units form (R78, R79). -/
def lineOf (mnemonic : List Char) (operands : List Token) : Option AsmLine :=
  if mnemonic = ['N', 'O', 'P'] then if operands = [] then some .nop else none
  else if mnemonic = ['I', 'N', 'I', 'T'] then if operands = [] then some .init else none
  else if mnemonic = ['B', 'Y', 'T', 'E'] then
    match operands with
    | [t] => (byteOperand t).map .byte
    | _ => none
  else if mnemonic = ['R', 'E', 'P'] then
    match operands with
    | [n, .comma, .word ['B', 'Y', 'T', 'E'], t] =>
      (numberOperand n).bind (fun k => (byteOperand t).map (AsmLine.rep k))
    | _ => none
  else if mnemonic = ['Z', 'E', 'R', 'O', 'S'] then
    match operands with
    | [n] => (numberOperand n).map .zeros
    | _ => none
  else if mnemonic = ['B', 'Y', 'T', 'E', 'S'] then
    match operands with
    | [.text text] => some (.bytes text)
    | _ => none
  else if mnemonic = ['S', 'T', 'R', 'E', 'A', 'M'] then (operands.mapM numberOperand).map .stream
  else if mnemonic = ['I', 'D', 'L', 'E'] then
    match operands with
    | [n] => (numberOperand n).map .idle
    | _ => none
  else none

/-- Read one line of text. -/
def parseLine (line : List Char) : Option AsmLine :=
  match lex .gap line with
  | some [] => some .blank
  | some (.word mnemonic :: operands) => lineOf mnemonic operands
  | some (.comma :: _) => none
  | some (.text _ :: _) => none
  | some (.char _ :: _) => none
  | none => none

/-- The command words of a line of text. -/
def assembleText (line : List Char) : Except AsmError (List CmdWord) :=
  match parseLine line with
  | some l => assembleLine l
  | none => .error .malformedLine

/-- The command words of a command stream "one command per line"; the first refused line refuses it (R78). -/
def assembleProgram : List (List Char) → Except AsmError (List CmdWord)
  | [] => .ok []
  | line :: rest =>
    match assembleText line with
    | .error e => .error e
    | .ok ws =>
      match assembleProgram rest with
      | .error e => .error e
      | .ok more => .ok (ws ++ more)

end Sys2Proof.Machine
end

