-- ==== Sys2Proof/Machine/Ports.lean ====
section
/-! DEFINITION. The output ports: the boundary event and the read-only status ports (10_state.md R40,
30_encoding.md R74 to R76). Reading them has no side effect: they are functions of the state. -/

namespace Sys2Proof.Machine

/-- The output side of the port list of 30_encoding.md R76. -/
structure OutputPorts (c : Config) where
  /-- `bnd_valid`: a boundary event exists. -/
  bndValid : Bool
  /-- `bnd_offset`; when `bnd_valid = 0` its value "means nothing" (R74, U6), so there is none. -/
  bndOffset : Option (Boundary c)
  /-- `s1[31:0]`. -/
  s1 : Word32
  /-- `s2[31:0]`. -/
  s2 : Word32
  /-- `split`. -/
  split : Bool
  /-- `cur_len[LENW-1:0]`. -/
  curLen : BitVec c.lenW
  /-- `goff[OFFW-1:0]`. -/
  gOff : BitVec c.offW
  deriving DecidableEq, Repr

/-- The ports show the state after the last executed command, and that command's event
(10_state.md R40, 70_reset_and_hazards.md R145). WINDOW and CURSOR are on no port. -/
def State.outputs (s : State) : OutputPorts s.cfg :=
  { bndValid := s.bnd.isSome
    bndOffset := s.bnd
    s1 := s.eng.rc.s1
    s2 := s.eng.rc.s2
    split := s.eng.rc.split
    curLen := s.eng.curLen
    gOff := s.eng.gOff }

end Sys2Proof.Machine
end

