-- ==== Sys2Proof/Machine/Run.lean ====
section
/-! DEFINITION. Runs: "a finite sequence of steps", and what has been fed to an engine
(00_scope.md R24, 10_state.md R41). -/

namespace Sys2Proof.Machine

/-- Run the machine over a sequence of port inputs, one step each. The observation is the `observed`
of the state it ends in (00_scope.md R24, 70_reset_and_hazards.md R143). -/
def run : List PortInput → State → Host.Outcome State Fault Refusal
  | [], s => .next s
  | p :: ps, s =>
    match step (s.present p) with
    | .next t => run ps t
    | .fault r => .fault r
    | .refused r => .refused r

/-- Run over a sequence of command words. -/
def runWords (ws : List CmdWord) (s : State) : Host.Outcome State Fault Refusal :=
  run (ws.map PortInput.command) s

/-- The command words that feed the bytes of a stream (30_encoding.md R54, R65). -/
def byteWords (bs : List Byte) : List CmdWord := bs.map (fun b => encode (.byte b))

/-- Run over the bytes of a stream, one BYTE command each. -/
def runBytes (bs : List Byte) (s : State) : Host.Outcome State Fault Refusal := runWords (byteWords bs) s

/-- The bytes rolled since the last RC.INIT or reset, newest first, after one more port input. -/
def fed (h : List Byte) (p : PortInput) : List Byte :=
  if p.rst then []
  else match decodeRcw p.cw with
    | .rcRoll b => b :: h
    | .rcInit => []
    | .rcHold => h
    | .nop => h
    | .byte _ => h
    | .init => h

/-- The bytes rolled since the last RC.INIT or reset, newest first, at the end of a run from reset
(10_state.md R41: `b_n, b_(n-1), …`). -/
def history (ps : List PortInput) : List Byte := ps.foldl fed []

/-- The stream data of a command word: the byte of a BYTE command (41_chunker.md R105). -/
def wordByte (w : CmdWord) : Option Byte :=
  match decodeCw w with
  | .byte b => some b
  | .nop => none
  | .init => none
  | .rcHold => none
  | .rcRoll _ => none
  | .rcInit => none

/-- A command word of one stream: no INIT (41_chunker.md R102). -/
def isStreamWord (w : CmdWord) : Bool := decodeCw w ≠ .init

/-- The bytes of a stream, in order: the data of its BYTE commands. -/
def streamBytes (ws : List CmdWord) : List Byte := ws.filterMap wordByte

end Sys2Proof.Machine
end

