-- ==== Sys2Proof/Safety.lean ====
section
/-! DEFINITION. The terms claims use: the bytes of the window by age, the invariants of the reachable
states (10_state.md R41 to R47), and the chunk lengths of an observation (41_chunker.md R99, R103). -/

namespace Sys2Proof.Machine

/-- The byte rolled `k` operations ago: cell `(CURSOR - 1 - k) mod WindowSize`, for `k < WindowSize`
(10_state.md R41). -/
def RcUnit.recent {c : Config} (r : RcUnit c) (k : Nat) : Byte :=
  Memory.read r.window ((r.cursor.val + (c.windowSize - 1 - k)) % c.windowSize)

/-- The window holds exactly the last `WindowSize` bytes of a history, newest first, zero-padded
(10_state.md R41). -/
def RcUnit.Remembers {c : Config} (r : RcUnit c) (h : List Byte) : Prop :=
  ∀ k, k < c.windowSize → r.recent k = h.getD k 0x00#8

/-- `Σ_i WINDOW[i]` (10_state.md R42). -/
def RcUnit.total {c : Config} (r : RcUnit c) : Nat :=
  ∑ i ∈ Finset.range c.windowSize, (Memory.read r.window i).toNat

/-- `Σ_k (k+1)·x_k`, with `x_k` the byte rolled `k` operations ago (10_state.md R43). -/
def RcUnit.weightedTotal {c : Config} (r : RcUnit c) : Nat :=
  ∑ k ∈ Finset.range c.windowSize, (k + 1) * (r.recent k).toNat

/-- The window is in canonical form and lists only cells that exist. -/
def RcUnit.WindowWf {c : Config} (r : RcUnit c) : Prop :=
  Memory.wf r.window ∧ Memory.within c.windowSize r.window

/-- The sum invariant of 10_state.md R42. -/
def RcUnit.SumHolds {c : Config} (r : RcUnit c) : Prop :=
  r.s1.toNat = (c.windowSize * c.charOffset + r.total) % 2 ^ 32

/-- The weighted-sum invariant of 10_state.md R43. -/
def RcUnit.WeightedSumHolds {c : Config} (r : RcUnit c) : Prop :=
  r.s2.toNat = (c.windowSize * (c.windowSize - 1) * c.charOffset + r.weightedTotal) % 2 ^ 32

/-- The chunk-length invariant: `0 ≤ CURLEN ≤ MaxBlobSize - 1` (10_state.md R46). -/
def Engine.LengthHolds {c : Config} (e : Engine c) : Prop := e.curLen.toNat ≤ c.maxBlobSize - 1

/-- What holds of every reachable engine state. -/
structure Engine.Inv {c : Config} (e : Engine c) : Prop where
  window : e.rc.WindowWf
  sum : e.rc.SumHolds
  weightedSum : e.rc.WeightedSumHolds
  length : e.LengthHolds

/-- A state the machine can be in after reset followed by any finite sequence of port inputs
(00_scope.md glossary). -/
def Reachable (c : Config) (s : State) : Prop := ∃ ps, run ps (State.resetOf c) = .next s

/-- Two engines whose windows hold the same bytes by age, with the same sums and the same CURLEN.
They can differ in GOFF, and in CURSOR with the places of the bytes in the cells (41_chunker.md R110,
log entry 12). -/
structure Engine.SameChunking {c : Config} (e f : Engine c) : Prop where
  recent : ∀ k, k < c.windowSize → e.rc.recent k = f.rc.recent k
  s1 : e.rc.s1 = f.rc.s1
  s2 : e.rc.s2 = f.rc.s2
  curLen : e.curLen = f.curLen

/-- The lengths of the chunks closed by boundaries `vs`, after a previous boundary `u`, which is `-1`
at stream start: `v - u` each (41_chunker.md R99). -/
def chunkLengths : Int → List Nat → List Int
  | _, [] => []
  | u, v :: vs => ((v : Int) - u) :: chunkLengths v vs

/-- The last boundary of an observation, or `-1` if there is none (41_chunker.md R104). -/
def lastBoundary (vs : List Nat) : Int := (vs.map Int.ofNat).getLastD (-1)

end Sys2Proof.Machine
end

