-- ==== Sys2Proof/Certificates/Slice0/Obligations.lean ====
section
/-! DEFINITION. The statements for the provers, in the order: encoding and notation, the RC unit, the
commands, the step, invariants of every step, facts of reachable states, streams. A result is written
`∃ r, exec i s = .next { s with … }`, so that what is not named is unchanged: that is its frame.
Rules R27, R36, R41 to R44, R46, R87, R88, R91, R93, R99, R101, R102, R109, R110, R129 and R142 are
marked by the spec as derived, in whole or in part; what rests on one of them is an inference of the
spec. The fields `bnd`, `observed` and `pending` are the model's form of the ports (log entries 1, 2, 4). -/

open Sys2Proof Sys2Proof.Machine

/-! ### Encoding, configuration, notation -/

/-- 95_test_vectors.md V39, and three of the same words on the RC unit's port (R70). -/
def Obligations.SampleWordsDecode : Prop :=
  [0x000#10, 0x0AB#10, 0x1FF#10, 0x200#10, 0x261#10, 0x2FF#10, 0x300#10, 0x3A5#10, 0x3FF#10].map decodeCw =
      [.nop, .nop, .nop, .byte 0x00#8, .byte 0x61#8, .byte 0xFF#8, .init, .init, .init] ∧
    [0x0AB#10, 0x261#10, 0x3A5#10].map decodeRcw = [.rcHold, .rcRoll 0x61#8, .rcInit] ∧
    decodeTableWord 16 0x261 = some (.byte 0x61#8) ∧ decodeTableWord 16 0x400 = none

/-- R69: decoding is total and unambiguous; each word selects exactly one row of its port, by mask and
match; 512 words are NOP, 256 BYTE, 256 INIT; no command word can fault. R70 says the same of the RC
control words. -/
def Obligations.EveryWordSelectsOneRow : Prop :=
  (∀ (f : Format) (w : CmdWord),
      opcodeTable.filter (fun row => row.format = f && row.selects w) = [(decodeOn f w).row]) ∧
    (∀ w : CmdWord, (decodeCw w = .nop ↔ w &&& 0x200#10 = 0x000#10) ∧
      (decodeCw w = .init ↔ w &&& 0x300#10 = 0x300#10) ∧
      ∀ b : Byte, decodeCw w = .byte b ↔ (w &&& 0x300#10 = 0x200#10 ∧ w &&& 0x0FF#10 = b.setWidth 10)) ∧
    (∀ w : CmdWord, (decodeRcw w = .rcHold ↔ w &&& 0x200#10 = 0x000#10) ∧
      (decodeRcw w = .rcInit ↔ w &&& 0x300#10 = 0x300#10) ∧
      ∀ b : Byte, decodeRcw w = .rcRoll b ↔
        (w &&& 0x300#10 = 0x200#10 ∧ w &&& 0x0FF#10 = b.setWidth 10)) ∧
    (let commands := (List.range 1024).map (fun n => decodeCw (BitVec.ofNat 10 n))
     commands.count .nop = 512 ∧ commands.count .init = 256 ∧
       commands.countP (fun i => i ≠ .nop && i ≠ .init) = 256) ∧
    ∀ (w : CmdWord) (s : State), ∃ t, exec (decodeCw w) s = .next t

/-- R73 and the round trip: decoding the canonical word of any operation gives it back, on its port,
with every operand value; encoding what a word decodes to gives the word with its ignored bits zero; and
the ignored bits have no effect on a step. -/
def Obligations.DecodeEncodeRoundTrip : Prop :=
  (∀ i : Instr, decodeOn i.format (encode i) = i) ∧
    (encode .nop = 0x000#10 ∧ encode .init = 0x300#10 ∧
      ∀ b : Byte, encode (.byte b) = 0x200#10 + b.setWidth 10) ∧
    (∀ (f : Format) (w : CmdWord), encode (decodeOn f w) =
      if w.getLsbD 9 = false then 0x000#10 else if w.getLsbD 8 = false then w else 0x300#10) ∧
    (∀ (s : State) (w : CmdWord), w.getLsbD 9 = false →
      step (s.present (.command w)) = step (s.present (.command 0x000#10))) ∧
    ∀ (s : State) (w : CmdWord), w.getLsbD 9 = true → w.getLsbD 8 = true →
      step (s.present (.command w)) = step (s.present (.command 0x300#10))

/-- R18: a configuration outside the ranges is refused, every one inside is accepted with its
parameters. -/
def Obligations.IllegalConfigurationsRefused : Prop :=
  ∀ p : Params,
    ((1 ≤ p.windowSize ∧ p.windowSize ≤ 65536 ∧ p.charOffset < 4294967296 ∧ p.blobBits ≤ 32 ∧
        1 ≤ p.maxBlobSize ∧ p.maxBlobSize < 4294967296 ∧ p.tooSmallThreshold < 4294967296 ∧
        1 ≤ p.offW) → ∃ c : Config, Config.ofParams p = some c ∧ c.toParams = p) ∧
      (¬(1 ≤ p.windowSize ∧ p.windowSize ≤ 65536 ∧ p.charOffset < 4294967296 ∧ p.blobBits ≤ 32 ∧
        1 ≤ p.maxBlobSize ∧ p.maxBlobSize < 4294967296 ∧ p.tooSmallThreshold < 4294967296 ∧
        1 ≤ p.offW) → Config.ofParams p = none)

/-- R17: CURW is `max(1, ceil(log2 W))`, LENW the number of bits that write MaxBlobSize; by default 6,
21 and 64. -/
def Obligations.RegisterWidths : Prop :=
  (∀ c : Config, c.windowSize ≤ 2 ^ c.curW ∧ 1 ≤ c.curW ∧ (2 ≤ c.curW → 2 ^ (c.curW - 1) < c.windowSize) ∧
      c.maxBlobSize < 2 ^ c.lenW ∧ 2 ^ (c.lenW - 1) ≤ c.maxBlobSize) ∧
    Config.default.curW = 6 ∧ Config.default.lenW = 21 ∧ Config.default.offW = 64

/-- R78: the three commands' words, and the refusal of an operand outside 0 to 255. The lines of text
are the notation's three ways to write the operand 65. -/
def Obligations.AssemblerNotation : Prop :=
  assembleLine .nop = .ok [0x000#10] ∧ assembleLine .init = .ok [0x300#10] ∧
    (∀ n, n ≤ 255 → assembleLine (.byte n) = .ok [0x200#10 + BitVec.ofNat 10 n]) ∧
    (∀ n, 255 < n → assembleLine (.byte n) = .error .operandOutOfRange) ∧
    assembleText ['B', 'Y', 'T', 'E', ' ', '6', '5'] = .ok [0x241#10] ∧
    assembleText ['B', 'Y', 'T', 'E', ' ', '0', 'x', '4', '1', ' ', commentMark, 'c'] = .ok [0x241#10] ∧
    assembleText ['B', 'Y', 'T', 'E', ' ', singleQuote, 'A', singleQuote] = .ok [0x241#10]

/-- R79: each pseudo-instruction stands for the commands of its expansion, and the engine sees the
expanded words: they decode to exactly the expansion, as commands of the producer. -/
def Obligations.PseudoInstructionExpansion : Prop :=
  (∀ n v, v ≤ 255 →
      assembleLine (.rep n v) = .ok (List.replicate n (0x200#10 + BitVec.ofNat 10 v))) ∧
    (∀ n, assembleLine (.zeros n) = .ok (List.replicate n 0x200#10)) ∧
    (∀ text : List Char, (∀ ch ∈ text, ch.toNat < 128) →
      assembleLine (.bytes text) = .ok (text.map (fun ch => 0x200#10 + BitVec.ofNat 10 ch.toNat))) ∧
    (∀ bs : List Nat, (∀ n ∈ bs, n ≤ 255) →
      assembleLine (.stream bs) = .ok (bs.map (fun n => 0x200#10 + BitVec.ofNat 10 n))) ∧
    (∀ n, assembleLine (.idle n) = .ok (List.replicate n 0x000#10)) ∧
    ∀ (l : AsmLine) (ws : List CmdWord), assembleLine l = .ok ws →
      ws.map decodeCw = expandLine l ∧ (expandLine l).all (Instr.wellFormed .cw) = true

/-! ### The RC unit -/

/-- R81: RC.INIT from any state. It reads no state, and changes only the RC unit (R92). -/
def Obligations.RcInitResult : Prop :=
  ∀ s : State, ∃ r : RcUnit s.cfg,
    exec .rcInit s = .next { s with eng := { s.eng with rc := r } } ∧
      (∀ i, i < s.cfg.windowSize → Memory.read r.window i = 0x00#8) ∧ r.cursor.val = 0 ∧
      r.s1.toNat = s.cfg.windowSize * s.cfg.charOffset % 2 ^ 32 ∧
      r.s2.toNat = s.cfg.windowSize * (s.cfg.windowSize - 1) * s.cfg.charOffset % 2 ^ 32 ∧
      (r.split = true ↔ r.s2 &&& s.cfg.blobMask = s.cfg.splitMask) ∧
      (s.cfg = Config.default → r.s1 = 1984#32 ∧ r.s2 = 124992#32 ∧ r.split = false)

/-- R82 with R85: RC.ROLL in 32-bit wrapping arithmetic; the dropped byte is the cell at CURSOR before
the write, `S2` reads the new `S1`, one cell is written, and nothing outside the RC unit changes (R92).
The effective address is CURSOR (R89). -/
def Obligations.RcRollResult : Prop :=
  ∀ (s : State) (b : Byte), ∃ r : RcUnit s.cfg,
    exec (.rcRoll b) s = .next { s with eng := { s.eng with rc := r } } ∧
      (let old := s.eng.rc
       let drop : Byte := Memory.read old.window old.effectiveCell.val
       r.s1 = old.s1 + b.setWidth 32 - drop.setWidth 32 ∧
       r.s2 = old.s2 + r.s1 -
         BitVec.ofNat 32 s.cfg.windowSize * (drop.setWidth 32 + BitVec.ofNat 32 s.cfg.charOffset) ∧
       old.effectiveCell = old.cursor ∧
       Memory.read r.window old.effectiveCell.val = b ∧
       (∀ i, i ≠ old.effectiveCell.val → Memory.read r.window i = Memory.read old.window i) ∧
       r.cursor.val = (old.cursor.val + 1) % s.cfg.windowSize ∧
       (r.split = true ↔ r.s2 &&& s.cfg.blobMask = s.cfg.splitMask))

/-- R83: RC.HOLD is the identity. -/
def Obligations.RcHoldIsIdentity : Prop := ∀ s : State, exec .rcHold s = .next s

/-- R86: each sum is the exact integer result reduced modulo 2^32 once at the end; here `S2` directly
from the old values, in one reduction. Nothing saturates; the two examples are of unreachable states. -/
def Obligations.SumsWrapModulo : Prop :=
  (∀ (s : State) (b : Byte), ∃ r : RcUnit s.cfg,
      exec (.rcRoll b) s = .next { s with eng := { s.eng with rc := r } } ∧
        (let s1 : Int := s.eng.rc.s1.toNat
         let s2 : Int := s.eng.rc.s2.toNat
         let drop : Int := (Memory.read s.eng.rc.window s.eng.rc.cursor.val).toNat
         (r.s1.toNat : Int) = (s1 + b.toNat - drop) % 2 ^ 32 ∧
         (r.s2.toNat : Int) =
           (s2 + (s1 + b.toNat - drop) - s.cfg.windowSize * (drop + s.cfg.charOffset)) % 2 ^ 32)) ∧
    (∀ r : RcUnit Config.default, r.window = [(0, 0x05#8)] → r.cursor.val = 0 → r.s1 = 0#32 →
      r.s2 = 0#32 → (r.roll 0x00#8).s1 = 0xFFFFFFFB#32 ∧ (r.roll 0x00#8).s2 = 0xFFFFF6FB#32) ∧
    ∀ r : RcUnit Config.default, r.window = [] → r.cursor.val = 0 → r.s1 = 0xFFFFFFFF#32 →
      (r.roll 0xFF#8).s1 = 0x000000FE#32

/-- R84: SPLIT is true exactly when the low BlobBits bits of `S2` are all ones; it reads `S2` only;
with BlobBits 0 it is always true, with 32 it compares all of `S2`. -/
def Obligations.SplitIsLowBitsAllOnes : Prop :=
  (∀ (c : Config) (r : RcUnit c), r.split = true ↔ ∀ i, i < c.blobBits → r.s2.getLsbD i = true) ∧
    (∀ (c : Config) (r q : RcUnit c), r.s2 = q.s2 → r.split = q.split) ∧
    (∀ (c : Config) (r : RcUnit c), c.blobBits = 0 → r.split = true) ∧
    (∀ (c : Config) (r : RcUnit c), c.blobBits = 32 → (r.split = true ↔ r.s2 = 0xFFFFFFFF#32)) ∧
    [124992#32, 131071#32, 393215#32, 0x0003FFFF#32].map (splitOf Config.default) =
      [false, true, true, true]

/-- R88: the product, and the cursor update as an increment with the carry discarded. -/
def Obligations.CursorUpdateForms : Prop :=
  (∀ d : Byte, 1984 ≤ Config.default.windowSize * (d.toNat + Config.default.charOffset) ∧
      Config.default.windowSize * (d.toNat + Config.default.charOffset) ≤ 18304 ∧
      Config.default.windowSize * (d.toNat + Config.default.charOffset) = (d.toNat + 31) <<< 6) ∧
    ∀ (s : State) (b : Byte), ∃ r : RcUnit s.cfg,
      exec (.rcRoll b) s = .next { s with eng := { s.eng with rc := r } } ∧
        r.cursor.val = (if s.eng.rc.cursor.val + 1 < s.cfg.windowSize then s.eng.rc.cursor.val + 1 else 0) ∧
        ∀ k, 1 ≤ k → s.cfg.windowSize = 2 ^ k → s.cfg.curW = k ∧
          BitVec.ofNat s.cfg.curW r.cursor.val = BitVec.ofNat s.cfg.curW s.eng.rc.cursor.val + 1#s.cfg.curW

/-- R90 and R91: once the window holds W copies of one byte, rolling that byte leaves `S1`, `S2` and
the window unchanged and only CURSOR advances; the values are then the closed forms. -/
def Obligations.ConstantWindowSteadyState : Prop :=
  ∀ (s : State) (b : Byte), (∀ i, i < s.cfg.windowSize → Memory.read s.eng.rc.window i = b) →
    s.eng.rc.SumHolds →
    ∃ r : RcUnit s.cfg, exec (.rcRoll b) s = .next { s with eng := { s.eng with rc := r } } ∧
      r.s1 = s.eng.rc.s1 ∧ r.s2 = s.eng.rc.s2 ∧
      (∀ i, Memory.read r.window i = Memory.read s.eng.rc.window i) ∧
      r.cursor.val = (s.eng.rc.cursor.val + 1) % s.cfg.windowSize ∧
      r.s1.toNat = s.cfg.windowSize * (s.cfg.charOffset + b.toNat) % 2 ^ 32 ∧
      (s.eng.rc.WeightedSumHolds → r.s2.toNat =
        (s.cfg.windowSize * (s.cfg.windowSize - 1) * s.cfg.charOffset +
          b.toNat * (s.cfg.windowSize * (s.cfg.windowSize + 1) / 2)) % 2 ^ 32)

/-! ### The commands -/

/-- R94: INIT gives the reset state whatever the state before, and no event. R45: the table of the reset
state, in every configuration, then its default column at the ports of R75. -/
def Obligations.InitResult : Prop :=
  (∀ s : State, exec .init s = .next { s with eng := Engine.reset s.cfg, bnd := none }) ∧
    (∀ c : Config, (State.resetOf c).eng = Engine.reset c ∧ (State.resetOf c).bnd = none ∧ (∀ i, Memory.read (Engine.reset c).rc.window i = 0x00#8) ∧
      (Engine.reset c).rc.cursor.val = 0 ∧
      (Engine.reset c).rc.s1.toNat = c.windowSize * c.charOffset % 2 ^ 32 ∧
      (Engine.reset c).rc.s2.toNat = c.windowSize * (c.windowSize - 1) * c.charOffset % 2 ^ 32 ∧
      (Engine.reset c).curLen.toNat = 0 ∧ (Engine.reset c).gOff.toNat = 0 ∧
      ((Engine.reset c).rc.split = true ↔ (Engine.reset c).rc.s2 &&& c.blobMask = c.splitMask)) ∧
    State.reset = State.resetOf Config.default ∧
    State.reset.outputs.s1 = 1984#32 ∧ State.reset.outputs.s2 = 124992#32 ∧
    State.reset.outputs.split = false ∧ State.reset.outputs.curLen.toNat = 0 ∧
    State.reset.outputs.gOff.toNat = 0 ∧ State.reset.outputs.bndValid = false

/-- R95: BYTE `b`. The RC unit makes exactly the transition of RC.ROLL `b`; CURLEN is incremented; on the
condition of R97 one event carries GOFF from before its increment and CURLEN becomes 0. -/
def Obligations.ByteResult : Prop :=
  ∀ (s : State) (b : Byte), ∃ r : RcUnit s.cfg,
    exec (.rcRoll b) s = .next { s with eng := { s.eng with rc := r } } ∧
      (let len := (s.eng.curLen.toNat + 1) % 2 ^ s.cfg.lenW
       ((len = s.cfg.maxBlobSize ∨ (r.split = true ∧ s.cfg.tooSmallThreshold < len)) →
          exec (.byte b) s = .next { s with
            eng := { rc := r, curLen := 0#s.cfg.lenW, gOff := s.eng.gOff + 1#s.cfg.offW }
            bnd := some s.eng.gOff, observed := s.observed ++ [s.eng.gOff] }) ∧
       (¬(len = s.cfg.maxBlobSize ∨ (r.split = true ∧ s.cfg.tooSmallThreshold < len)) →
          exec (.byte b) s = .next { s with
            eng := { rc := r, curLen := BitVec.ofNat s.cfg.lenW len, gOff := s.eng.gOff + 1#s.cfg.offW }
            bnd := none }))

/-- R97: the boundary condition, with the incremented CURLEN and SPLIT of the new `S2`; its action; and
its form in the default configuration: `CURLEN == 1048576`, or `S2[16:0] == 0x1FFFF` and
`CURLEN ≥ 65537`. -/
def Obligations.BoundaryCondition : Prop :=
  ∀ (s : State) (b : Byte), ∃ t : State, exec (.byte b) s = .next t ∧
    (let len := (s.eng.curLen.toNat + 1) % 2 ^ s.cfg.lenW
     (t.bnd.isSome = true ↔
        (len = s.cfg.maxBlobSize ∨ (t.eng.rc.split = true ∧ s.cfg.tooSmallThreshold < len))) ∧
     (t.bnd.isSome = true → t.bnd.map BitVec.toNat = some s.eng.gOff.toNat ∧ t.eng.curLen.toNat = 0) ∧
     (s.cfg = Config.default → (t.bnd.isSome = true ↔
        (len = 1048576 ∨ (t.eng.rc.s2.extractLsb' 0 17 = 0x1FFFF#17 ∧ 65537 ≤ len)))))

/-- R36: which command touches which state. NOP holds all six items; BYTE writes the one cell it
addresses and holds the other cells; INIT and reset write every item of the table. The configuration
and the producer's further inputs are held by all, and so is the consumer's record of earlier events
(log entries 1 and 4): BYTE appends its own event to it, the others nothing. What BYTE writes to the
registers is `ByteResult`. -/
def Obligations.CommandFrames : Prop :=
  (∀ s t : State, exec .nop s = .next t →
      t = { s with bnd := none }) ∧
    (∀ (s t : State) (b : Byte), exec (.byte b) s = .next t →
      (∀ i, i ≠ s.eng.rc.effectiveCell.val → Memory.read t.eng.rc.window i = Memory.read s.eng.rc.window i) ∧
      Memory.read t.eng.rc.window s.eng.rc.effectiveCell.val = b ∧
      t.cfg = s.cfg ∧ t.pending = s.pending ∧
      t.observed.map BitVec.toNat =
        s.observed.map BitVec.toNat ++ (t.bnd.map BitVec.toNat).toList) ∧
    (∀ s t : State, exec .init s = .next t →
      (∀ i, Memory.read t.eng.rc.window i = 0x00#8) ∧ t.eng.rc.cursor.val = 0 ∧
      t.eng.rc.s1.toNat = s.cfg.windowSize * s.cfg.charOffset % 2 ^ 32 ∧
      t.eng.rc.s2.toNat = s.cfg.windowSize * (s.cfg.windowSize - 1) * s.cfg.charOffset % 2 ^ 32 ∧
      t.eng.curLen.toNat = 0 ∧ t.eng.gOff.toNat = 0 ∧ t.bnd.map BitVec.toNat = none ∧
      t.cfg = s.cfg ∧ t.pending = s.pending ∧
      t.observed.map BitVec.toNat = s.observed.map BitVec.toNat) ∧
    ∀ s : State, (∀ i, Memory.read s.takeReset.eng.rc.window i = 0x00#8) ∧
      s.takeReset.eng.rc.cursor.val = 0 ∧
      s.takeReset.eng.rc.s1.toNat = s.cfg.windowSize * s.cfg.charOffset % 2 ^ 32 ∧
      s.takeReset.eng.rc.s2.toNat =
        s.cfg.windowSize * (s.cfg.windowSize - 1) * s.cfg.charOffset % 2 ^ 32 ∧
      s.takeReset.eng.curLen.toNat = 0 ∧ s.takeReset.eng.gOff.toNat = 0 ∧ s.takeReset.bnd = none ∧
      s.takeReset.cfg = s.cfg ∧ s.takeReset.pending = s.pending ∧ s.takeReset.observed = s.observed

/-- R71: each command performs its RC operation, once and within the same step: the RC unit after the
command that a word stands for is the RC unit after the RC operation that the same word stands for. -/
def Obligations.ForwardingToRcUnit : Prop :=
  ∀ (s : State) (w : CmdWord), ∃ (r : RcUnit s.cfg) (e : Engine s.cfg) (ev : Option (Boundary s.cfg)),
    exec (decodeRcw w) s = .next { s with eng := { s.eng with rc := r } } ∧
      exec (decodeCw w) s = .next { s with eng := e, bnd := ev, observed := s.observed ++ ev.toList } ∧
      e.rc = r ∧
      (decodeRcw w = .rcHold ↔ decodeCw w = .nop) ∧
      (∀ b, decodeRcw w = .rcRoll b ↔ decodeCw w = .byte b) ∧ (decodeRcw w = .rcInit ↔ decodeCw w = .init)

/-- R142: a candidate in a chunk that is still too small closes nothing (short of the cap), and leaves
no trace but `S2`: CURLEN goes on counting. -/
def Obligations.CandidateInSmallChunkIsLost : Prop :=
  ∀ (s : State) (b : Byte), s.eng.curLen.toNat + 1 ≤ s.cfg.tooSmallThreshold →
    s.eng.curLen.toNat + 1 < s.cfg.maxBlobSize →
    ∃ r : RcUnit s.cfg, exec (.rcRoll b) s = .next { s with eng := { s.eng with rc := r } } ∧
      exec (.byte b) s = .next { s with
        eng := { rc := r, curLen := s.eng.curLen + 1#s.cfg.lenW, gOff := s.eng.gOff + 1#s.cfg.offW }
        bnd := none }

/-- R101 with R37: how the two implicit states change. -/
def Obligations.PhaseTransitions : Prop :=
  (∀ (s : State) (b : Byte), s.eng.LengthHolds → ∃ t : State, exec (.byte b) s = .next t ∧
      (t.bnd = none → t.eng.phase = .accumulating) ∧ (t.bnd ≠ none → t.eng.phase = .justClosed) ∧
      (s.cfg.maxBlobSize = 1 → t.bnd ≠ none) ∧
      (s.cfg = Config.default → s.eng.phase = .justClosed → t.bnd = none)) ∧
    (∀ s : State, ∃ t : State, exec .init s = .next t ∧ t.eng.phase = .justClosed) ∧
    (∀ s : State, s.takeReset.eng.phase = .justClosed) ∧
    ∀ s : State, ∃ t : State, exec .nop s = .next t ∧ t.eng.phase = s.eng.phase

/-! ### The step -/

/-- A step runs the decoded command: whatever command word the producer presents, the step is `exec` of
what it decodes to, in the state that no longer holds that input. With the fixed names of the host's
interface: so does a word stored by `withFetchWord`. -/
def Obligations.StepRunsDecodedCommand : Prop :=
  (∀ (s : State) (w : CmdWord) (rest : List PortInput), s.pending = ⟨false, w⟩ :: rest →
      step s = exec (decodeCw w) { s with pending := rest }) ∧
    (∀ (s : State) (n w : Nat) (i : Instr), decodeTableWord n w = some i →
      step (s.withFetchWord n w) = exec i s) ∧
    ∀ (s : State) (i : Instr), i.wellFormed .cw = true →
      step (s.present (.command (encode i))) = exec i s

/-- R130: with `rst` the reset state is taken whatever the state and the word presented, the word is
discarded, no event is produced. R15, R45: the configuration is not affected. That this step's input is
used up (`pending := rest`) is the model's choice, log entry 13. -/
def Obligations.ResetOverridesCommand : Prop :=
  ∀ (s : State) (w : CmdWord) (rest : List PortInput), s.pending = ⟨true, w⟩ :: rest →
    step s = .next { s with eng := Engine.reset s.cfg, bnd := none, pending := rest }

/-- R128: with no command presented the engine holds all state for any number of steps. -/
def Obligations.IdleHoldsState : Prop :=
  ∀ (s : State) (n : Nat), s.pending = [] →
    Host.Core.run Sys2Proof.core (n + 1) s = .next { s with bnd := none }

/-- R129: every step of every state returns a next state, and so does every operation; an event is the
step's optional boundary, recorded once; the configuration never changes (R15). -/
def Obligations.EveryStepCompletes : Prop :=
  (∀ s : State, ∃ t : State, step s = .next t ∧ t.cfg = s.cfg ∧
      t.observed.map BitVec.toNat = s.observed.map BitVec.toNat ++ (t.bnd.map BitVec.toNat).toList ∧
      (t.bnd.map BitVec.toNat = none ∨ t.bnd.map BitVec.toNat = some s.eng.gOff.toNat)) ∧
    ∀ (i : Instr) (s : State), ∃ t : State, exec i s = .next t ∧ t.cfg = s.cfg

/-- A run over port inputs is that many steps of the host's machine with the inputs pending (R24). -/
def Obligations.RunIsStepsOfCore : Prop :=
  ∀ (ps : List PortInput) (s : State),
    Host.Core.run Sys2Proof.core ps.length { s with pending := ps ++ s.pending } = run ps s

/-- R34: the engine keeps no record of past events: no step reads the last event or the consumer's
record. -/
def Obligations.EngineReadsNoPastEvent : Prop :=
  ∀ (s : State) (ev : Option (Boundary s.cfg)) (old : List (Boundary s.cfg)),
    ∃ (e : Engine s.cfg) (new : Option (Boundary s.cfg)),
      step s = .next { s with
        eng := e, bnd := new, observed := s.observed ++ new.toList, pending := s.pending.tail } ∧
      step { s with bnd := ev, observed := old } = .next { s with
        eng := e, bnd := new, observed := old ++ new.toList, pending := s.pending.tail }

/-! ### Invariants that every step keeps -/

/-- Reset meets every invariant, in every configuration. -/
def Obligations.ResetMeetsInvariants : Prop := ∀ c : Config, (State.resetOf c).eng.Inv

/-- The window keeps its canonical form and lists only cells that exist (R51, R59). -/
def Obligations.WindowStaysCanonical : Prop :=
  ∀ s t : State, s.eng.rc.WindowWf → step s = .next t → t.eng.rc.WindowWf

/-- R42: "`s1` equals the sum over the window of `(byte + CharOffset)` modulo 2^32", kept by every step;
by default, in a reachable state, `S1 = 1984 + Σ_i WINDOW[i]`. -/
def Obligations.SumInvariantKept : Prop :=
  (∀ s t : State, s.eng.rc.SumHolds → step s = .next t → t.eng.rc.SumHolds) ∧
    ∀ s : State, Reachable Config.default s → s.eng.rc.s1.toNat = 1984 + s.eng.rc.total

/-- R43: the closed form of `S2`, kept by every step together with that of `S1`; by default, in a
reachable state, `S2 = 124992 + Σ_k (k+1)·x_k`. -/
def Obligations.WeightedSumInvariantKept : Prop :=
  (∀ s t : State, s.eng.rc.SumHolds → s.eng.rc.WeightedSumHolds → step s = .next t →
      t.eng.rc.WeightedSumHolds) ∧
    ∀ s : State, Reachable Config.default s → s.eng.rc.s2.toNat = 124992 + s.eng.rc.weightedTotal

/-- R46: `0 ≤ CURLEN ≤ MaxBlobSize - 1` after every command, and CURLEN counts the BYTE commands since
the last boundary, INIT or reset. -/
def Obligations.ChunkLengthBoundKept : Prop :=
  (∀ s t : State, s.eng.LengthHolds → step s = .next t → t.eng.LengthHolds) ∧
    (∀ (s t : State) (b : Byte), s.eng.LengthHolds → exec (.byte b) s = .next t →
      (t.bnd ≠ none → t.eng.curLen.toNat = 0) ∧
      (t.bnd = none → t.eng.curLen.toNat = s.eng.curLen.toNat + 1)) ∧
    (∀ s t : State, exec .nop s = .next t → t.eng.curLen.toNat = s.eng.curLen.toNat) ∧
    (∀ s t : State, exec .init s = .next t → t.eng.curLen.toNat = 0) ∧
    ∀ s : State, s.takeReset.eng.curLen.toNat = 0

/-- R41, one step: the window of an engine that remembers a history remembers it with the new byte. -/
def Obligations.WindowRemembersEachStep : Prop :=
  ∀ (s t : State) (h : List Byte), s.eng.rc.Remembers h → step s = .next t →
    t.eng.rc.Remembers (fed h s.portInput)

/-! ### Reachable states -/

/-- R41, R27, R31: after any port inputs from reset, the window holds exactly the last `WindowSize` bytes
rolled since the last RC.INIT or reset, zero-padded; CURSOR is their number modulo `WindowSize`, GOFF
their number modulo `2^OFFW`; the next roll drops the oldest byte of the window. -/
def Obligations.RunFromResetIsHistory : Prop :=
  ∀ (c : Config) (ps : List PortInput), ∃ t : State, run ps (State.resetOf c) = .next t ∧ t.cfg = c ∧
    t.eng.rc.Remembers (history ps) ∧
    t.eng.rc.cursor.val = (history ps).length % c.windowSize ∧
    t.eng.gOff.toNat = (history ps).length % 2 ^ c.offW ∧
    t.eng.rc.drop = (history ps).getD (c.windowSize - 1) 0x00#8

/-- R89: RC.ROLL number `n` addresses cell `(n - 1) mod W`, and drops the byte of number `n - W`, or
0x00 if `n ≤ W`. Here `bs` are the bytes before it, so `n = bs.length + 1`. -/
def Obligations.NthRollAddressesCell : Prop :=
  ∀ (c : Config) (bs : List Byte), ∃ t : State, runBytes bs (State.resetOf c) = .next t ∧ t.cfg = c ∧
    t.eng.rc.effectiveCell.val = bs.length % c.windowSize ∧
    t.eng.rc.drop =
      if bs.length + 1 ≤ c.windowSize then 0x00#8 else bs.getD (bs.length - c.windowSize) 0x00#8

/-- R44: the reachable ranges of the default configuration, and the five reachable split candidates. -/
def Obligations.DefaultReachableRanges : Prop :=
  ∀ s : State, Reachable Config.default s →
    1984 ≤ s.eng.rc.s1.toNat ∧ s.eng.rc.s1.toNat ≤ 18304 ∧
    124992 ≤ s.eng.rc.s2.toNat ∧ s.eng.rc.s2.toNat ≤ 655392 ∧
    (s.eng.rc.split = true ↔ s.eng.rc.s2.toNat ∈ [131071, 262143, 393215, 524287, 655359])

/-- R87: in the default configuration no reachable state makes RC.ROLL wrap: the results are the
unbounded ones. -/
def Obligations.DefaultRollNeverWraps : Prop :=
  ∀ (s : State) (b : Byte), Reachable Config.default s →
    (let drop := s.eng.rc.drop.toNat
     1984 + drop ≤ s.eng.rc.s1.toNat ∧ 124992 + 64 * drop ≤ s.eng.rc.s2.toNat ∧
     ∃ r : RcUnit s.cfg, exec (.rcRoll b) s = .next { s with eng := { s.eng with rc := r } } ∧
       (r.s1.toNat : Int) = s.eng.rc.s1.toNat + b.toNat - drop ∧
       (r.s2.toNat : Int) = s.eng.rc.s2.toNat + r.s1.toNat - 64 * (drop + 31) ∧
       1984 ≤ r.s1.toNat ∧ 0 < r.s2.toNat ∧ r.s1.toNat < 2 ^ 20 ∧ r.s2.toNat < 2 ^ 20)

/-- R93: whether a position is a split candidate depends only on the last W bytes. -/
def Obligations.SplitDependsOnWindowOnly : Prop :=
  ∀ (c : Config) (e f : Engine c), e.Inv → f.Inv →
    (∀ k, k < c.windowSize → e.rc.recent k = f.rc.recent k) → e.rc.split = f.rc.split

/-! ### Streams -/

/-- R102: the boundary values of one stream of at most `2^OFFW` bytes are strictly increasing and each
is at most the stream length minus 1. The stream starts in the reset state of the engine, after INIT or
reset; NOPs may stand anywhere. -/
def Obligations.StreamBoundariesIncrease : Prop :=
  ∀ (s : State) (ws : List CmdWord), s.eng = Engine.reset s.cfg → ws.all isStreamWord = true →
    (streamBytes ws).length ≤ 2 ^ s.cfg.offW →
    ∃ (t : State) (vs : List Nat), runWords ws s = .next t ∧
      t.observed.map BitVec.toNat = s.observed.map BitVec.toNat ++ vs ∧
      vs.Pairwise (· < ·) ∧ ∀ v ∈ vs, v < (streamBytes ws).length

/-- R103 and R104: every reported chunk is exactly MaxBlobSize long or longer than the threshold, and
never longer than MaxBlobSize; the bytes after the last boundary are not reported, and CURLEN is their
number. -/
def Obligations.StreamChunkLengths : Prop :=
  ∀ (s : State) (ws : List CmdWord), s.eng = Engine.reset s.cfg → ws.all isStreamWord = true →
    (streamBytes ws).length ≤ 2 ^ s.cfg.offW →
    ∃ (t : State) (vs : List Nat), runWords ws s = .next t ∧
      t.observed.map BitVec.toNat = s.observed.map BitVec.toNat ++ vs ∧
      (∀ d ∈ chunkLengths (-1) vs, d ≤ s.cfg.maxBlobSize ∧
        (d = s.cfg.maxBlobSize ∨ (s.cfg.tooSmallThreshold : Int) < d)) ∧
      (t.eng.curLen.toNat : Int) = (streamBytes ws).length - 1 - lastBoundary vs

/-- R96, R105 and, for the ignored bits, R73: two command streams that differ only in NOPs and in
ignored bits give the same observation and the same final state; the last event port aside, which shows the last step. -/
def Obligations.NopsChangeNothing : Prop :=
  (∀ s : State, exec .nop s = .next { s with bnd := none }) ∧
    ∀ (s : State) (ws vs : List CmdWord),
      (ws.map decodeCw).filter (· ≠ .nop) = (vs.map decodeCw).filter (· ≠ .nop) →
      ∃ t u : State, runWords ws s = .next t ∧ runWords vs s = .next u ∧
        { t with bnd := none } = { u with bnd := none }

/-- R106: a zero-length stream produces zero boundaries: INIT, or reset, followed by no BYTE command
emits nothing and leaves the reset state. -/
def Obligations.EmptyStreamNoBoundary : Prop :=
  ∀ (s : State) (w : CmdWord) (nops : List CmdWord), nops.all (fun n => decodeCw n = .nop) = true →
    runWords (0x300#10 :: nops) s = .next { s with eng := Engine.reset s.cfg, bnd := none } ∧
    run (⟨true, w⟩ :: nops.map PortInput.command) s =
      .next { s with eng := Engine.reset s.cfg, bnd := none }

/-- R107 is for the default configuration; this is its general form, for every configuration whose reset
state is no split candidate, and is derived. The default one is such, with `s2 = 124992` and the cap 1048576. The sums never change, the split test is never
satisfied, and the boundaries are exactly `k·MaxBlobSize - 1`; number `k` exists iff the stream has at
least `k·MaxBlobSize` bytes. -/
def Obligations.AllZeroStreamBoundaries : Prop :=
  (∀ (s : State) (n : Nat), s.eng = Engine.reset s.cfg → s.eng.rc.split = false → n ≤ 2 ^ s.cfg.offW →
      ∃ t : State, runBytes (List.replicate n 0x00#8) s = .next t ∧
        t.observed.map BitVec.toNat = s.observed.map BitVec.toNat ++
          (List.range (n / s.cfg.maxBlobSize)).map (fun k => (k + 1) * s.cfg.maxBlobSize - 1) ∧
        t.eng.rc.s1 = s.eng.rc.s1 ∧ t.eng.rc.s2 = s.eng.rc.s2 ∧ t.eng.rc.split = false ∧
        t.eng.curLen.toNat = n % s.cfg.maxBlobSize) ∧
    (Engine.reset Config.default).rc.s2 = 124992#32 ∧
    (Engine.reset Config.default).rc.split = false ∧ Config.default.maxBlobSize = 1048576

/-- R108: after INIT the events of a stream are a function of its own commands alone: they are those of
a run from the reset state, whatever was fed before. -/
def Obligations.InitIsolatesStreams : Prop :=
  ∀ (s : State) (ws : List CmdWord),
    ∃ (e : Engine s.cfg) (ev : Option (Boundary s.cfg)) (vs : List (Boundary s.cfg)),
      runWords ws (State.resetOf s.cfg) = .next { State.resetOf s.cfg with
        eng := e, bnd := ev, observed := vs } ∧
      runWords (0x300#10 :: ws) s = .next { s with eng := e, bnd := ev, observed := s.observed ++ vs }

/-- R109: when the window is no longer than the threshold plus one (so by default), what happens after
a boundary, INIT or reset does not depend on the bytes of the closed chunks still in the window. -/
def Obligations.ClosedChunksDoNotInfluence : Prop :=
  ∀ (s : State) (f : Engine s.cfg) (ps : List PortInput),
    s.cfg.windowSize ≤ s.cfg.tooSmallThreshold + 1 → s.eng.Inv → f.Inv →
    s.eng.phase = .justClosed → f.phase = .justClosed → s.eng.gOff = f.gOff →
    ∃ t u : State, run ps s = .next t ∧ run ps { s with eng := f } = .next u ∧
      t.observed.map BitVec.toNat = u.observed.map BitVec.toNat

/-- R110, the mechanism, and R141: engines that hold the same bytes by age, the same sums and CURLEN
cut at the same places from then on; the values they emit differ by the difference of their GOFF. The
decisions never depend on GOFF. -/
def Obligations.SameChunkingShiftsOffsets : Prop :=
  ∀ (s : State) (f : Engine s.cfg) (ws : List CmdWord), s.eng.SameChunking f →
    ws.all isStreamWord = true →
    ∃ (t u : State) (ds : List Nat), runWords ws s = .next t ∧ runWords ws { s with eng := f } = .next u ∧
      t.observed.map BitVec.toNat = s.observed.map BitVec.toNat ++
        ds.map (fun d => (s.eng.gOff.toNat + d) % 2 ^ s.cfg.offW) ∧
      u.observed.map BitVec.toNat = s.observed.map BitVec.toNat ++
        ds.map (fun d => (f.gOff.toNat + d) % 2 ^ s.cfg.offW)

/-- R110, how two runs come to agree: two engines whose last W - 1 bytes are the same, fed one more
common byte at which both emit, hold the same bytes by age, the same sums and the same CURLEN. -/
def Obligations.CommonBoundaryResynchronises : Prop :=
  ∀ (s : State) (f : Engine s.cfg) (b : Byte), s.eng.Inv → f.Inv →
    (∀ k, k + 1 < s.cfg.windowSize → s.eng.rc.recent k = f.rc.recent k) →
    ∀ (e' f' : Engine s.cfg) (v v' : Boundary s.cfg) (t u : State),
      exec (.byte b) s = .next t → t = { s with eng := e', bnd := some v, observed := s.observed ++ [v] } →
      exec (.byte b) { s with eng := f } = .next u →
      u = { s with eng := f', bnd := some v', observed := s.observed ++ [v'] } →
      e'.SameChunking f'

/-! ### The ports -/

/-- R40, R74, R75: after a BYTE, from any state, `bnd_valid` and `bnd_offset` show that step's event,
and `s1`, `s2`, `split`, `cur_len`, `goff` show the registers after it, each given from the state before
(`r` is the RC unit after RC.ROLL). After NOP the status ports show what they showed, after INIT and
reset the reset values, and none of the three shows an event. R74 says of `bnd_offset` without an event
only that its value means nothing (U6); that it is then `none` is DEDUCED, log entry 9. -/
def Obligations.PortsShowLastStep : Prop :=
  (∀ (s : State) (b : Byte), ∃ (r : RcUnit s.cfg) (t : State),
      exec (.rcRoll b) s = .next { s with eng := { s.eng with rc := r } } ∧ exec (.byte b) s = .next t ∧
      (let len := (s.eng.curLen.toNat + 1) % 2 ^ s.cfg.lenW
       let onSplit := r.s2 &&& s.cfg.blobMask = s.cfg.splitMask
       let cut := len = s.cfg.maxBlobSize ∨ (onSplit ∧ s.cfg.tooSmallThreshold < len)
       t.outputs.s1 = r.s1 ∧ t.outputs.s2 = r.s2 ∧ (t.outputs.split = true ↔ onSplit) ∧
       t.outputs.gOff.toNat = (s.eng.gOff.toNat + 1) % 2 ^ s.cfg.offW ∧
       (t.outputs.bndValid = true ↔ cut) ∧
       (cut → t.outputs.bndOffset.map BitVec.toNat = some s.eng.gOff.toNat ∧
         t.outputs.curLen.toNat = 0) ∧
       (¬cut → t.outputs.bndOffset.map BitVec.toNat = none ∧ t.outputs.curLen.toNat = len))) ∧
    (∀ s : State, ∃ t : State, exec .nop s = .next t ∧ t.outputs.bndValid = false ∧
      t.outputs.bndOffset.map BitVec.toNat = none ∧ t.outputs.s1 = s.outputs.s1 ∧
      t.outputs.s2 = s.outputs.s2 ∧ t.outputs.split = s.outputs.split ∧
      t.outputs.curLen.toNat = s.outputs.curLen.toNat ∧ t.outputs.gOff.toNat = s.outputs.gOff.toNat) ∧
    ∀ s t : State, exec .init s = .next t ∨ t = s.takeReset →
      t.outputs.bndValid = false ∧ t.outputs.bndOffset.map BitVec.toNat = none ∧
      t.outputs.s1.toNat = s.cfg.windowSize * s.cfg.charOffset % 2 ^ 32 ∧
      t.outputs.s2.toNat = s.cfg.windowSize * (s.cfg.windowSize - 1) * s.cfg.charOffset % 2 ^ 32 ∧
      (t.outputs.split = true ↔ t.outputs.s2 &&& s.cfg.blobMask = s.cfg.splitMask) ∧
      t.outputs.curLen.toNat = 0 ∧ t.outputs.gOff.toNat = 0
end

