-- ==== Sys2Proof/Laws/Decode.lean ====
section
/-! SUPPORT. The decoder by the fields of the word, and its agreement with the RC unit's decoder. -/

namespace Sys2Proof

/-- A property of the 1024 command words, checked one by one. -/
theorem forall_cmdWord {P : CmdWord → Prop} (h : ∀ n, n < 1024 → P (BitVec.ofNat 10 n)) (w : CmdWord) :
    P w := by
  have hw := h w.toNat w.isLt
  rwa [BitVec.ofNat_toNat, BitVec.setWidth_eq] at hw

theorem decodeCw_of_v_false {w : CmdWord} (h : w.getLsbD 9 = false) : decodeCw w = .nop := if_pos h

theorem decodeCw_of_op_false {w : CmdWord} (h : w.getLsbD 9 = true) (h' : w.getLsbD 8 = false) :
    decodeCw w = .byte (dataField w) := by
  rw [decodeCw, vField, opField, h, h']
  rfl

theorem decodeCw_of_op_true {w : CmdWord} (h : w.getLsbD 9 = true) (h' : w.getLsbD 8 = true) :
    decodeCw w = .init := by
  rw [decodeCw, vField, opField, h, h']
  rfl

/-- One layout, two ports: the three cases of a word on both (30_encoding.md R69, R70). -/
theorem decode_cases (w : CmdWord) :
    (decodeCw w = .nop ∧ decodeRcw w = .rcHold) ∨
    (∃ b, decodeCw w = .byte b ∧ decodeRcw w = .rcRoll b) ∨
    (decodeCw w = .init ∧ decodeRcw w = .rcInit) := by
  unfold decodeCw decodeRcw
  cases vField w
  · exact .inl ⟨rfl, rfl⟩
  · cases opField w
    · exact .inr (.inl ⟨_, rfl, rfl⟩)
    · exact .inr (.inr ⟨rfl, rfl⟩)

@[simp] theorem decodeCw_encode_byte (b : Byte) : decodeCw (encode (.byte b)) = .byte b := by
  revert b
  decide +kernel

@[simp] theorem decodeRcw_encode_rcRoll (b : Byte) : decodeRcw (encode (.rcRoll b)) = .rcRoll b := by
  revert b
  decide +kernel

@[simp] theorem decodeCw_encode_nop : decodeCw (encode .nop) = .nop := rfl
@[simp] theorem decodeCw_encode_init : decodeCw (encode .init) = .init := rfl

end Sys2Proof
end

