-- ==== Sys2Proof/Laws/Memory.lean ====
section
/-! SUPPORT. The laws of the window memory: read after write, and that every memory operation keeps the
canonical form. -/

namespace Sys2Proof.Machine

variable {m : Memory} {w i j : Nat} {v : Byte}

@[simp] theorem Memory.read_zeros : Memory.read Memory.zeros i = unlistedByte := rfl

theorem Memory.read_nil : Memory.read [] i = unlistedByte := rfl

theorem Memory.read_erase (m : Memory) (i j : Nat) :
    Memory.read (Memory.erase m i) j = if j = i then unlistedByte else Memory.read m j := by
  induction m with
  | nil => simp [Memory.erase, Memory.read]
  | cons cell m ih =>
    obtain ⟨x, u⟩ := cell
    simp only [Memory.erase] at ih
    by_cases hx : x = i
    · subst hx
      simp only [Memory.erase, List.filter_cons, ne_eq, not_true_eq_false, decide_false]
      rw [if_neg (by simp), ih, Memory.read]
      split <;> rename_i h
      · rfl
      · rw [if_neg (fun h' => h h'.symm)]
    · simp only [Memory.erase, List.filter_cons, ne_eq, hx, not_false_eq_true, decide_true, if_true,
        Memory.read, ih]
      split
      · rename_i h
        subst h
        rw [if_neg hx]
      · rfl

theorem Memory.read_insert (m : Memory) (i j : Nat) (v : Byte) (h : ∀ x ∈ m, x.1 ≠ i) :
    Memory.read (Memory.insert m i v) j = if j = i then v else Memory.read m j := by
  induction m with
  | nil => simp only [Memory.insert, Memory.read, eq_comm]
  | cons cell m ih =>
    obtain ⟨x, u⟩ := cell
    have hx : x ≠ i := h (x, u) (by simp)
    have ih := ih (fun y hy => h y (by simp [hy]))
    simp only [Memory.insert]
    split
    · simp only [Memory.read, eq_comm (a := i)]
    · simp only [Memory.read, ih]
      split
      · rename_i h'
        subst h'
        rw [if_neg hx]
      · rfl

theorem Memory.ne_of_mem_erase {x : Host.Cell} (h : x ∈ Memory.erase m i) : x.1 ≠ i := by
  simpa using (List.mem_filter.1 h).2

/-- Read after write, on any list of cells, canonical or not. -/
theorem Memory.read_write (m : Memory) (i j : Nat) (v : Byte) :
    Memory.read (Memory.write m i v) j = if j = i then v else Memory.read m j := by
  unfold Memory.write
  split
  · rename_i h
    rw [Memory.read_erase, h]
  · rw [Memory.read_insert _ _ _ _ (fun x hx => Memory.ne_of_mem_erase hx), Memory.read_erase]
    split <;> rfl

@[simp] theorem Memory.read_write_same : Memory.read (Memory.write m i v) i = v := by
  rw [Memory.read_write, if_pos rfl]

theorem Memory.read_write_other (h : j ≠ i) :
    Memory.read (Memory.write m i v) j = Memory.read m j := by
  rw [Memory.read_write, if_neg h]

theorem Memory.wf_zeros : Memory.wf Memory.zeros := by simp [Memory.wf, Memory.zeros]

theorem Memory.within_zeros : Memory.within w Memory.zeros := by simp [Memory.within, Memory.zeros]

theorem Memory.wf_erase (h : Memory.wf m) : Memory.wf (Memory.erase m i) :=
  ⟨h.1.filter _, fun x hx => h.2 x (List.mem_of_mem_filter hx)⟩

theorem Memory.mem_insert {x : Host.Cell} :
    x ∈ Memory.insert m i v ↔ x = (i, v) ∨ x ∈ m := by
  induction m with
  | nil => simp [Memory.insert]
  | cons cell m ih =>
    obtain ⟨y, u⟩ := cell
    simp only [Memory.insert]
    split
    · simp
    · simp only [List.mem_cons, ih]
      tauto

theorem Memory.wf_insert (h : Memory.wf m) (hne : ∀ x ∈ m, x.1 ≠ i) (hv : v ≠ unlistedByte) :
    Memory.wf (Memory.insert m i v) := by
  refine ⟨?_, fun x hx => ?_⟩
  · obtain ⟨h, -⟩ := h
    induction m with
    | nil => simp [Memory.insert]
    | cons cell m ih =>
      obtain ⟨y, u⟩ := cell
      have hy : y ≠ i := hne (y, u) (by simp)
      obtain ⟨hlt, hm⟩ := List.pairwise_cons.1 h
      simp only [Memory.insert]
      split
      · rename_i hi
        refine List.pairwise_cons.2 ⟨fun z hz => ?_, h⟩
        rcases List.mem_cons.1 hz with rfl | hz
        · exact hi
        · exact lt_trans hi (hlt z hz)
      · rename_i hi
        refine List.pairwise_cons.2 ⟨fun z hz => ?_, ih (fun x hx => hne x (by simp [hx])) hm⟩
        rcases Memory.mem_insert.1 hz with rfl | hz
        · show y < i
          omega
        · exact hlt z hz
  · rcases Memory.mem_insert.1 hx with rfl | hx
    · exact hv
    · exact h.2 x hx

/-- A write keeps the canonical form. -/
theorem Memory.wf_write (h : Memory.wf m) : Memory.wf (Memory.write m i v) := by
  unfold Memory.write
  split
  · exact Memory.wf_erase h
  · exact Memory.wf_insert (Memory.wf_erase h) (fun _ hx => Memory.ne_of_mem_erase hx) ‹_›

theorem Memory.within_write (h : Memory.within w m) (hi : i < w) :
    Memory.within w (Memory.write m i v) := by
  have he : Memory.within w (Memory.erase m i) := fun x hx => h x (List.mem_of_mem_filter hx)
  unfold Memory.write
  split
  · exact he
  · intro x hx
    rcases Memory.mem_insert.1 hx with rfl | hx
    · exact hi
    · exact he x hx

/-- A listed cell of a canonical window reads as its entry. -/
theorem Memory.read_of_mem (h : Memory.wf m) (hm : (i, v) ∈ m) : Memory.read m i = v := by
  obtain ⟨h, -⟩ := h
  induction m with
  | nil => simp at hm
  | cons cell m ih =>
    obtain ⟨y, u⟩ := cell
    obtain ⟨hlt, hm'⟩ := List.pairwise_cons.1 h
    rcases List.mem_cons.1 hm with heq | hm
    · obtain ⟨rfl, rfl⟩ := Prod.mk.inj heq
      simp [Memory.read]
    · have : y < i := hlt _ hm
      rw [Memory.read, if_neg (by omega), ih hm hm']

/-- RC.INIT's W writes of 0x00 (20_memory.md R56) leave no listed cell: `Memory.zeros` is their result. -/
theorem Memory.erase_all_eq_zeros (h : Memory.within w m) :
    (List.range w).foldl (fun n k => Memory.write n k unlistedByte) m = Memory.zeros := by
  have key : ∀ (ks : List Nat) (m : Memory),
      ks.foldl (fun n k => Memory.write n k unlistedByte) m = m.filter (fun x => decide (x.1 ∉ ks)) := by
    intro ks
    induction ks with
    | nil => simp
    | cons k ks ih =>
      intro m
      rw [List.foldl_cons, ih, Memory.write, if_pos rfl, Memory.erase, List.filter_filter]
      congr 1
      funext x
      simp [Bool.and_comm]
  rw [key, Memory.zeros, List.filter_eq_nil_iff]
  intro x hx
  simp [h x hx]

end Sys2Proof.Machine
end

