-- ==== Sys2Proof/Laws/State.lean ====
section
/-! SUPPORT. One lemma per field per update of the state, so that no proof unfolds a record update. -/

namespace Sys2Proof.Machine

variable (s : State)

@[simp] theorem State.withRc_cfg (r : RcUnit s.cfg) : (s.withRc r).cfg = s.cfg := rfl
@[simp] theorem State.withRc_rc (r : RcUnit s.cfg) : (s.withRc r).eng.rc = r := rfl
@[simp] theorem State.withRc_curLen (r : RcUnit s.cfg) : (s.withRc r).eng.curLen = s.eng.curLen := rfl
@[simp] theorem State.withRc_gOff (r : RcUnit s.cfg) : (s.withRc r).eng.gOff = s.eng.gOff := rfl
@[simp] theorem State.withRc_bnd (r : RcUnit s.cfg) : (s.withRc r).bnd = s.bnd := rfl
@[simp] theorem State.withRc_observed (r : RcUnit s.cfg) : (s.withRc r).observed = s.observed := rfl
@[simp] theorem State.withRc_pending (r : RcUnit s.cfg) : (s.withRc r).pending = s.pending := rfl

@[simp] theorem State.commit_cfg (r) : (s.commit r).cfg = s.cfg := rfl
@[simp] theorem State.commit_eng (r) : (s.commit r).eng = r.1 := rfl
@[simp] theorem State.commit_bnd (r) : (s.commit r).bnd = r.2 := rfl
@[simp] theorem State.commit_observed (r) : (s.commit r).observed = s.observed ++ r.2.toList := rfl
@[simp] theorem State.commit_pending (r) : (s.commit r).pending = s.pending := rfl

/-- Committing a command without an event. -/
theorem State.commit_no_event (e : Engine s.cfg) : s.commit (e, none) = { s with eng := e, bnd := none } := by
  simp [State.commit]

@[simp] theorem State.takeReset_cfg : s.takeReset.cfg = s.cfg := rfl
@[simp] theorem State.takeReset_eng : s.takeReset.eng = Engine.reset s.cfg := rfl
@[simp] theorem State.takeReset_bnd : s.takeReset.bnd = none := rfl
@[simp] theorem State.takeReset_observed : s.takeReset.observed = s.observed := rfl
@[simp] theorem State.takeReset_pending : s.takeReset.pending = s.pending := rfl

@[simp] theorem State.dropInput_cfg : s.dropInput.cfg = s.cfg := rfl
@[simp] theorem State.dropInput_eng : s.dropInput.eng = s.eng := rfl
@[simp] theorem State.dropInput_bnd : s.dropInput.bnd = s.bnd := rfl
@[simp] theorem State.dropInput_observed : s.dropInput.observed = s.observed := rfl
@[simp] theorem State.dropInput_pending : s.dropInput.pending = s.pending.tail := rfl

variable (p : PortInput)

@[simp] theorem State.present_cfg : (s.present p).cfg = s.cfg := rfl
@[simp] theorem State.present_eng : (s.present p).eng = s.eng := rfl
@[simp] theorem State.present_bnd : (s.present p).bnd = s.bnd := rfl
@[simp] theorem State.present_observed : (s.present p).observed = s.observed := rfl
@[simp] theorem State.present_pending : (s.present p).pending = p :: s.pending := rfl
@[simp] theorem State.present_portInput : (s.present p).portInput = p := rfl
@[simp] theorem State.present_dropInput : (s.present p).dropInput = s := rfl

@[simp] theorem State.resetOf_cfg (c : Config) : (State.resetOf c).cfg = c := rfl
@[simp] theorem State.resetOf_eng (c : Config) : (State.resetOf c).eng = Engine.reset c := rfl
@[simp] theorem State.resetOf_bnd (c : Config) : (State.resetOf c).bnd = none := rfl
@[simp] theorem State.resetOf_observed (c : Config) : (State.resetOf c).observed = [] := rfl
@[simp] theorem State.resetOf_pending (c : Config) : (State.resetOf c).pending = [] := rfl

@[simp] theorem PortInput.command_rst (w : CmdWord) : (PortInput.command w).rst = false := rfl
@[simp] theorem PortInput.command_cw (w : CmdWord) : (PortInput.command w).cw = w := rfl

variable {c : Config} (r : RcUnit c)

@[simp] theorem RcUnit.memWrite_window (i : Fin c.windowSize) (v : Byte) :
    (r.memWrite i v).window = Memory.write r.window i.val v := rfl

@[simp] theorem RcUnit.init_window : r.init.window = [] := rfl
@[simp] theorem RcUnit.init_cursor : r.init.cursor = ⟨0, c.windowSize_pos⟩ := rfl

variable (b : Byte)

@[simp] theorem RcUnit.roll_window :
    (r.roll b).window = Memory.write r.window r.cursor.val b := rfl
@[simp] theorem RcUnit.roll_cursor : (r.roll b).cursor = nextCell r.cursor := rfl
theorem RcUnit.roll_s1 : (r.roll b).s1 = mod32 (uint r.s1 + uint b - uint r.drop) := rfl
theorem RcUnit.roll_s2 : (r.roll b).s2 =
    mod32 (uint r.s2 + uint (r.roll b).s1 - c.windowSize * (uint r.drop + c.charOffset)) := rfl

@[simp] theorem RcUnit.hold_eq : r.hold = r := rfl

variable (e : Engine c)

@[simp] theorem Engine.byte_rc : (e.byte b).1.rc = e.rc.roll b := rfl
@[simp] theorem Engine.byte_gOff : (e.byte b).1.gOff = e.gOff + 1#c.offW := rfl
@[simp] theorem Engine.nop_eq : e.nop = (e, none) := rfl

end Sys2Proof.Machine
end

