-- ==== Sys2Proof/Laws/RollSum.lean ====
section
/-! SUPPORT. What RC.ROLL and RC.INIT do to the bytes of the window by age, to their total and to their
weighted total, and what follows for the two sums. -/

namespace Sys2Proof.Machine

variable {c : Config}

@[simp] theorem toNat_mod32 (n : Int) : ((mod32 n).toNat : Int) = n % 2 ^ 32 := by
  rw [mod32, BitVec.toNat_ofInt]
  omega

theorem RcUnit.roll_s1_toNat (r : RcUnit c) (b : Byte) :
    ((r.roll b).s1.toNat : Int) = (r.s1.toNat + b.toNat - r.drop.toNat) % 2 ^ 32 := by
  rw [RcUnit.roll_s1, toNat_mod32]
  rfl

theorem RcUnit.roll_s2_toNat (r : RcUnit c) (b : Byte) :
    ((r.roll b).s2.toNat : Int) = (r.s2.toNat + (r.roll b).s1.toNat -
      c.windowSize * (r.drop.toNat + c.charOffset)) % 2 ^ 32 := by
  rw [RcUnit.roll_s2, toNat_mod32]
  rfl

/-- The index arithmetic of `RcUnit.recent`, for a cursor that has moved on by one. -/
theorem recent_index {w i k : Nat} (hk : k + 1 < w) :
    ((i + 1) % w + (w - 1 - (k + 1))) % w = (i + (w - 1 - k)) % w := by
  rw [Nat.mod_add_mod]
  congr 1
  omega

theorem recent_index_ne {w i k : Nat} (hi : i < w) (hk : k + 1 < w) : (i + (w - 1 - k)) % w ≠ i := by
  intro h
  by_cases hlt : i + (w - 1 - k) < w
  · rw [Nat.mod_eq_of_lt hlt] at h
    omega
  · rw [Nat.mod_eq_sub_mod (by omega), Nat.mod_eq_of_lt (by omega)] at h
    omega

@[simp] theorem RcUnit.recent_roll_zero (r : RcUnit c) (b : Byte) : (r.roll b).recent 0 = b := by
  have hw := c.windowSize_pos
  have hi := r.cursor.isLt
  have : ((r.cursor.val + 1) % c.windowSize + (c.windowSize - 1 - 0)) % c.windowSize = r.cursor.val := by
    rw [Nat.mod_add_mod, show r.cursor.val + 1 + (c.windowSize - 1 - 0) = r.cursor.val + c.windowSize by omega,
      Nat.add_mod_right, Nat.mod_eq_of_lt hi]
  simp only [RcUnit.recent, RcUnit.roll_cursor, nextCell, this, RcUnit.roll_window,
    Memory.read_write_same]

@[simp] theorem RcUnit.recent_roll_succ (r : RcUnit c) (b : Byte) {k : Nat} (hk : k + 1 < c.windowSize) :
    (r.roll b).recent (k + 1) = r.recent k := by
  simp only [RcUnit.recent, RcUnit.roll_cursor, nextCell, recent_index hk, RcUnit.roll_window]
  exact Memory.read_write_other (recent_index_ne r.cursor.isLt hk)

/-- The byte a roll drops is the oldest of the window (10_state.md R41). -/
theorem RcUnit.drop_eq_recent (r : RcUnit c) : r.drop = r.recent (c.windowSize - 1) := by
  have hi := r.cursor.isLt
  simp only [RcUnit.recent, Nat.sub_self, Nat.add_zero, Nat.mod_eq_of_lt hi]
  rfl

/-- The total over the cells is the total over the bytes by age. -/
theorem RcUnit.total_eq_recent (r : RcUnit c) :
    r.total = ∑ k ∈ Finset.range c.windowSize, (r.recent k).toNat := by
  have hw := c.windowSize_pos
  have hi := r.cursor.isLt
  have inv : ∀ k, k < c.windowSize →
      (r.cursor.val + (c.windowSize - 1 - (r.cursor.val + (c.windowSize - 1 - k)) % c.windowSize)) %
        c.windowSize = k := by
    intro k hk
    by_cases hlt : r.cursor.val + (c.windowSize - 1 - k) < c.windowSize
    · rw [Nat.mod_eq_of_lt hlt, Nat.mod_eq_of_lt (by omega)]
      omega
    · rw [Nat.mod_eq_sub_mod (by omega : c.windowSize ≤ r.cursor.val + (c.windowSize - 1 - k)),
        Nat.mod_eq_of_lt (by omega : r.cursor.val + (c.windowSize - 1 - k) - c.windowSize < c.windowSize),
        Nat.mod_eq_sub_mod (by omega), Nat.mod_eq_of_lt (by omega)]
      omega
  refine Finset.sum_nbij' (fun k => (r.cursor.val + (c.windowSize - 1 - k)) % c.windowSize)
    (fun k => (r.cursor.val + (c.windowSize - 1 - k)) % c.windowSize) ?_ ?_ ?_ ?_ ?_
  · intro k _
    simp [Nat.mod_lt _ hw]
  · intro k _
    simp [Nat.mod_lt _ hw]
  · intro k hk
    exact inv k (by simpa using hk)
  · intro k hk
    exact inv k (by simpa using hk)
  · intro k hk
    simp only [RcUnit.recent, inv k (by simpa using hk)]

/-- A roll replaces the oldest byte by the new one: the sum of the bytes that stay. -/
theorem RcUnit.total_split (r : RcUnit c) : r.total =
    ∑ k ∈ Finset.range (c.windowSize - 1), (r.recent k).toNat + r.drop.toNat := by
  have hw : c.windowSize = (c.windowSize - 1) + 1 := by have := c.windowSize_pos; omega
  rw [RcUnit.total_eq_recent, RcUnit.drop_eq_recent]
  conv_lhs => rw [hw]
  rw [Finset.sum_range_succ]

theorem RcUnit.total_roll_split (r : RcUnit c) (b : Byte) : (r.roll b).total =
    ∑ k ∈ Finset.range (c.windowSize - 1), (r.recent k).toNat + b.toNat := by
  have hw : c.windowSize = (c.windowSize - 1) + 1 := by have := c.windowSize_pos; omega
  rw [RcUnit.total_eq_recent]
  conv_lhs => rw [hw]
  rw [Finset.sum_range_succ', RcUnit.recent_roll_zero]
  congr 1
  refine Finset.sum_congr rfl fun k hk => ?_
  rw [RcUnit.recent_roll_succ r b (by have := Finset.mem_range.1 hk; omega)]

/-- The total after a roll: the new byte in, the dropped byte out (10_state.md R42). -/
theorem RcUnit.total_roll (r : RcUnit c) (b : Byte) :
    (r.roll b).total + r.drop.toNat = r.total + b.toNat := by
  rw [RcUnit.total_roll_split, RcUnit.total_split]
  omega

/-- The weighted total after a roll: every byte that stays gains one weight (10_state.md R43). -/
theorem RcUnit.weightedTotal_roll (r : RcUnit c) (b : Byte) :
    (r.roll b).weightedTotal + c.windowSize * r.drop.toNat = r.weightedTotal + (r.roll b).total := by
  have hw : c.windowSize = (c.windowSize - 1) + 1 := by have := c.windowSize_pos; omega
  have hnew : (r.roll b).weightedTotal =
      ∑ k ∈ Finset.range (c.windowSize - 1), (k + 2) * (r.recent k).toNat + b.toNat := by
    rw [RcUnit.weightedTotal]
    conv_lhs => rw [hw]
    rw [Finset.sum_range_succ', RcUnit.recent_roll_zero]
    congr 1
    · refine Finset.sum_congr rfl fun k hk => ?_
      rw [RcUnit.recent_roll_succ r b (by have := Finset.mem_range.1 hk; omega)]
    · omega
  have hold : r.weightedTotal =
      ∑ k ∈ Finset.range (c.windowSize - 1), (k + 1) * (r.recent k).toNat +
        c.windowSize * r.drop.toNat := by
    rw [RcUnit.weightedTotal, RcUnit.drop_eq_recent]
    conv_lhs => rw [hw]
    rw [Finset.sum_range_succ, ← hw]
  have hstep : ∑ k ∈ Finset.range (c.windowSize - 1), (k + 2) * (r.recent k).toNat =
      ∑ k ∈ Finset.range (c.windowSize - 1), (k + 1) * (r.recent k).toNat +
        ∑ k ∈ Finset.range (c.windowSize - 1), (r.recent k).toNat := by
    rw [← Finset.sum_add_distrib]
    exact Finset.sum_congr rfl fun k _ => by ring
  rw [hnew, hold, hstep, RcUnit.total_roll_split]
  omega

/-- A roll keeps the window canonical and within its cells. -/
theorem RcUnit.windowWf_roll {r : RcUnit c} (h : r.WindowWf) (b : Byte) : (r.roll b).WindowWf :=
  ⟨Memory.wf_write h.1, Memory.within_write h.2 r.cursor.isLt⟩

/-- The RC unit of the reset state is what RC.INIT leaves (10_state.md R45, 40_rollsum.md R81). -/
theorem RcUnit.init_eq_reset (r : RcUnit c) : r.init = RcUnit.reset c := by
  have hw := c.windowSize_pos
  have e1 : mod32 (c.windowSize * c.charOffset) = BitVec.ofNat 32 (c.windowSize * c.charOffset) := by
    rw [mod32, ← Nat.cast_mul, BitVec.ofInt_natCast]
  have e2 : mod32 (c.windowSize * (c.windowSize - 1) * c.charOffset) =
      BitVec.ofNat 32 (c.windowSize * (c.windowSize - 1) * c.charOffset) := by
    rw [mod32, ← BitVec.ofInt_natCast]
    push_cast [Nat.cast_sub (show 1 ≤ c.windowSize from hw)]
    rfl
  simp only [RcUnit.init, RcUnit.reset, e1, e2, Memory.zeros]

end Sys2Proof.Machine
end

