-- ==== Sys2Proof/Laws/Exec.lean ====
section
/-! SUPPORT. What each operation does, once: its equation, and the cases of BYTE. -/

namespace Sys2Proof.Machine

variable (s : State) (b : Byte)

@[simp] theorem exec_nop : exec .nop s = .next { s with bnd := none } := by
  rw [← State.commit_no_event s s.eng]
  rfl

@[simp] theorem exec_byte : exec (.byte b) s = .next { s with
    eng := (s.eng.byte b).1, bnd := (s.eng.byte b).2,
    observed := s.observed ++ (s.eng.byte b).2.toList } := rfl

@[simp] theorem exec_init : exec .init s = .next { s with eng := s.eng.init.1, bnd := none } := by
  rw [← State.commit_no_event s s.eng.init.1]
  rfl

@[simp] theorem exec_rcHold : exec .rcHold s = .next s := rfl

@[simp] theorem exec_rcRoll : exec (.rcRoll b) s = .next { s with
    eng := { s.eng with rc := s.eng.rc.roll b } } := rfl

@[simp] theorem exec_rcInit : exec .rcInit s = .next { s with
    eng := { s.eng with rc := s.eng.rc.init } } := rfl

variable {c : Config} (e : Engine c)

/-- INIT leaves the reset state of the engine (41_chunker.md R94). -/
theorem Engine.init_eq_reset : e.init = (Engine.reset c, none) := by
  simp only [Engine.init, Engine.reset, RcUnit.init_eq_reset]
  rfl

/-- The incremented CURLEN as a number (41_chunker.md R95, step 1). -/
theorem Engine.incremented_toNat (len : BitVec c.lenW) :
    (len + 1#c.lenW).toNat = (len.toNat + 1) % 2 ^ c.lenW := by
  simp [BitVec.toNat_add, BitVec.toNat_ofNat]

/-- MaxBlobSize can be written in LENW bits (00_scope.md R17). -/
theorem maxBlobSize_lt (c : Config) : c.maxBlobSize < 2 ^ c.lenW := Nat.lt_log2_self

/-- CURLEN of an engine that meets its bound is incremented without wrapping (41_chunker.md R95 (7)). -/
theorem Engine.incremented_of_lengthHolds {e : Engine c} (h : e.LengthHolds) :
    (e.curLen + 1#c.lenW).toNat = e.curLen.toNat + 1 := by
  have h1 := maxBlobSize_lt c
  have h2 := c.maxBlobSize_pos
  rw [Engine.incremented_toNat, Nat.mod_eq_of_lt]
  unfold Engine.LengthHolds at h
  omega

theorem boundaryCondition_iff (len : BitVec c.lenW) (onSplit : Bool) :
    boundaryCondition c len onSplit = true ↔
      len.toNat = c.maxBlobSize ∨ (onSplit = true ∧ c.tooSmallThreshold < len.toNat) := by
  simp [boundaryCondition, maxGate, minGate]

/-- BYTE either closes the chunk with one event, or counts on (41_chunker.md R95, R97). -/
theorem Engine.byte_cases :
    (boundaryCondition c (e.curLen + 1#c.lenW) (e.rc.roll b).split = true ∧
      e.byte b = ({ rc := e.rc.roll b, curLen := 0#c.lenW, gOff := e.gOff + 1#c.offW }, some e.gOff)) ∨
    (boundaryCondition c (e.curLen + 1#c.lenW) (e.rc.roll b).split = false ∧
      e.byte b = ({ rc := e.rc.roll b, curLen := e.curLen + 1#c.lenW, gOff := e.gOff + 1#c.offW },
        none)) := by
  cases h : boundaryCondition c (e.curLen + 1#c.lenW) (e.rc.roll b).split
  · exact .inr ⟨rfl, by simp [Engine.byte, h]⟩
  · exact .inl ⟨rfl, by simp [Engine.byte, h, Engine.offset]⟩

end Sys2Proof.Machine
end

