-- ==== Sys2Proof/Laws/PerInstr.lean ====
section
/-! SUPPORT. Statements made per instruction: the canonical word of an operation selects that
operation's own row of the opcode table, and no other of its port (30_encoding.md R69, R70, R73). -/

namespace Sys2Proof.Laws

/-- The canonical word selects its own row and no other row of its format. -/
def CanonicalRow.Statement (i : Instr) : Prop :=
  opcodeTable.filter (fun row => row.format = i.format && row.selects (encode i)) = [i.row]

theorem CanonicalRow.nop : CanonicalRow.Statement .nop := by unfold CanonicalRow.Statement; decide +kernel

theorem CanonicalRow.byte (b : Byte) : CanonicalRow.Statement (.byte b) := by
  revert b
  unfold CanonicalRow.Statement
  decide +kernel

theorem CanonicalRow.init : CanonicalRow.Statement .init := by
  unfold CanonicalRow.Statement; decide +kernel

theorem CanonicalRow.rcHold : CanonicalRow.Statement .rcHold := by
  unfold CanonicalRow.Statement; decide +kernel

theorem CanonicalRow.rcRoll (b : Byte) : CanonicalRow.Statement (.rcRoll b) := by
  revert b
  unfold CanonicalRow.Statement
  decide +kernel

theorem CanonicalRow.rcInit : CanonicalRow.Statement .rcInit := by
  unfold CanonicalRow.Statement; decide +kernel

end Sys2Proof.Laws
end

