-- ==== Sys2Proof/Laws/Step.lean ====
section
/-! SUPPORT. Everything a step can do, and how runs are put together. -/

namespace Sys2Proof.Machine

/-- Every step takes reset, or executes NOP, one BYTE, or INIT; it uses up its port input. -/
theorem step_cases (s : State) :
    (s.portInput.rst = true ∧ step s = .next { s with
      eng := Engine.reset s.cfg, bnd := none, pending := s.pending.tail }) ∨
    (s.portInput.rst = false ∧ decodeCw s.portInput.cw = .nop ∧ step s = .next { s with
      bnd := none, pending := s.pending.tail }) ∨
    (s.portInput.rst = false ∧ ∃ b, decodeCw s.portInput.cw = .byte b ∧ step s = .next { s with
      eng := (s.eng.byte b).1, bnd := (s.eng.byte b).2,
      observed := s.observed ++ (s.eng.byte b).2.toList, pending := s.pending.tail }) ∨
    (s.portInput.rst = false ∧ decodeCw s.portInput.cw = .init ∧ step s = .next { s with
      eng := Engine.reset s.cfg, bnd := none, pending := s.pending.tail }) := by
  cases hr : s.portInput.rst
  · have hs : step s = exec (decodeCw s.portInput.cw) s.dropInput := by simp [step, hr]
    rcases decode_cases s.portInput.cw with ⟨hd, -⟩ | ⟨b, hd, -⟩ | ⟨hd, -⟩
    · refine .inr (.inl ⟨rfl, hd, ?_⟩)
      rw [hs, hd, exec_nop]
      rfl
    · exact .inr (.inr (.inl ⟨rfl, b, hd, by rw [hs, hd]; rfl⟩))
    · refine .inr (.inr (.inr ⟨rfl, hd, ?_⟩))
      rw [hs, hd, exec_init, Engine.init_eq_reset]
      rfl
  · exact .inl ⟨rfl, by simp [step, hr, State.takeReset, State.dropInput]⟩

/-- The cases of a step as facts about its next state. -/
theorem step_next_cases {s t : State} (h : step s = .next t) :
    (s.portInput.rst = true ∧ t = { s with
      eng := Engine.reset s.cfg, bnd := none, pending := s.pending.tail }) ∨
    (s.portInput.rst = false ∧ decodeCw s.portInput.cw = .nop ∧ t = { s with
      bnd := none, pending := s.pending.tail }) ∨
    (s.portInput.rst = false ∧ ∃ b, decodeCw s.portInput.cw = .byte b ∧ t = { s with
      eng := (s.eng.byte b).1, bnd := (s.eng.byte b).2,
      observed := s.observed ++ (s.eng.byte b).2.toList, pending := s.pending.tail }) ∨
    (s.portInput.rst = false ∧ decodeCw s.portInput.cw = .init ∧ t = { s with
      eng := Engine.reset s.cfg, bnd := none, pending := s.pending.tail }) := by
  rcases step_cases s with ⟨a, h1⟩ | ⟨a, d, h1⟩ | ⟨a, b, d, h1⟩ | ⟨a, d, h1⟩ <;> rw [h1] at h <;>
    injection h with h <;> subst h
  · exact .inl ⟨a, rfl⟩
  · exact .inr (.inl ⟨a, d, rfl⟩)
  · exact .inr (.inr (.inl ⟨a, b, d, rfl⟩))
  · exact .inr (.inr (.inr ⟨a, d, rfl⟩))

/-- What a step makes of the engine, when the producer presents an input. -/
theorem step_present_rst (s : State) (w : CmdWord) :
    step (s.present ⟨true, w⟩) = .next s.takeReset := rfl

theorem step_present_command (s : State) (w : CmdWord) :
    step (s.present (.command w)) = exec (decodeCw w) s := rfl

/-- One step of the host's run. -/
theorem core_run_succ (n : Nat) (s : State) : Host.Core.run Sys2Proof.core (n + 1) s =
    match step s with
    | .next t => Host.Core.run Sys2Proof.core n t
    | .fault r => .fault r
    | .refused r => .refused r := by
  refine (Host.Core.run.eq_2 Sys2Proof.core s n).trans ?_
  cases h : step s with
  | next t =>
    have h' : Sys2Proof.core.step s = .next t := h
    rw [h']
  | fault r => cases r
  | refused r =>
    have h' : Sys2Proof.core.step s = .refused r := h
    rw [h']

@[simp] theorem run_nil (s : State) : run [] s = .next s := rfl

theorem run_cons (p : PortInput) (ps : List PortInput) (s t : State)
    (h : step (s.present p) = .next t) : run (p :: ps) s = run ps t := by
  simp [run, h]

theorem runWords_cons (w : CmdWord) (ws : List CmdWord) (s t : State)
    (h : exec (decodeCw w) s = .next t) : runWords (w :: ws) s = runWords ws t :=
  run_cons _ _ _ _ ((step_present_command s w).trans h)

theorem run_append (ps qs : List PortInput) (s t : State) (h : run ps s = .next t) :
    run (ps ++ qs) s = run qs t := by
  induction ps generalizing s with
  | nil =>
    rw [run_nil] at h
    injection h with h
    rw [List.nil_append, h]
  | cons p ps ih =>
    simp only [run, List.cons_append] at h ⊢
    split at h
    · exact ih _ h
    · cases h
    · cases h

end Sys2Proof.Machine
end

