-- ==== Sys2Proof/Tests/Slice0.lean ====
section
/-! SUPPORT. Tests: the checks of WellFormed, decoding of words written bit by bit from the encoding
tables, single steps from the vectors of 95_test_vectors.md, and for every obligation with hypotheses a
witness that meets them together. Every expected value is the spec's or is worked out from its rules. -/

namespace Sys2Proof.Tests

open Sys2Proof Sys2Proof.Machine

/-! ### Builders -/

/-- The small configuration of V38 and P4. -/
def small : Config :=
  ⟨{ windowSize := 4, charOffset := 1, blobBits := 2, maxBlobSize := 8, tooSmallThreshold := 2,
     offW := 64 }, by decide⟩

/-- A configuration in which every byte closes a chunk, with one window cell. -/
def tiny : Config :=
  ⟨{ windowSize := 1, charOffset := 0, blobBits := 0, maxBlobSize := 1, tooSmallThreshold := 0,
     offW := 1 }, by decide⟩

/-- An RC unit of the default configuration. -/
def unit (window : Memory) (cursor : Fin 64) (s1 s2 : Word32) : RcUnit Config.default :=
  { window := window, cursor := cursor, s1 := s1, s2 := s2 }

/-- A state of the default configuration with the given RC unit and counters. -/
def at_ (rc : RcUnit Config.default) (len off : Nat) : State :=
  { State.resetOf Config.default with
    eng := { rc := rc, curLen := BitVec.ofNat _ len, gOff := BitVec.ofNat _ off } }

/-- State A of 95_test_vectors.md section 3, with counters. -/
def stateA (len off : Nat) : State :=
  at_ (unit [(0, 0xFF#8)] 22 2239#32 130602#32) len off

/-- The end of V7. -/
def abc : RcUnit Config.default := unit [(0, 0x61#8), (1, 0x62#8), (2, 0x63#8)] 3 2278#32 125578#32

/-- A small-configuration RC unit whose window holds four bytes 7, with the sums of R91. -/
def sevensRc (cursor : Fin 4) : RcUnit small :=
  { window := [(0, 0x07#8), (1, 0x07#8), (2, 0x07#8), (3, 0x07#8)], cursor := cursor, s1 := 32#32, s2 := 82#32 }

/-- An engine with that RC unit. -/
def sevens (cursor : Fin 4) (len off : Nat) : Engine small :=
  { rc := sevensRc cursor, curLen := BitVec.ofNat _ len, gOff := BitVec.ofNat _ off }

/-- An engine whose oldest byte is 6 and whose other bytes are 7, one byte below the cap: its sums are
`4·1 + 27` and `12 + 7·(1 + 2 + 3) + 6·4`. -/
def nearSevens : Engine small :=
  { rc := { window := [(0, 0x07#8), (1, 0x07#8), (2, 0x07#8), (3, 0x06#8)], cursor := (3 : Fin 4),
            s1 := 31#32, s2 := 78#32 }
    curLen := 7, gOff := 9 }

/-- A state with a small-configuration engine. -/
def smallAt (e : Engine small) : State := { State.resetOf small with eng := e }

/-- Whether an outcome is a next state with a property. -/
def ends (o : Host.Outcome State Fault Refusal) (p : State → Bool) : Bool :=
  match o with
  | .next t => p t
  | .fault _ => false
  | .refused _ => false

/-- The registers of a state as numbers: CURSOR, S1, S2, CURLEN, GOFF. -/
def regs (s : State) : List Nat :=
  [s.eng.rc.cursor.val, s.eng.rc.s1.toNat, s.eng.rc.s2.toNat, s.eng.curLen.toNat, s.eng.gOff.toNat]

/-- The event of the last step. -/
def event (s : State) : Option Nat := s.bnd.map BitVec.toNat

/-! ### WellFormed -/

theorem smoke_rc_operation_on_command_port :
    Instr.wellFormed .cw (.rcRoll 0x61#8) = false ∧ Instr.wellFormed .cw .rcHold = false ∧
      Instr.wellFormed .cw .rcInit = false := by decide

theorem smoke_command_on_rc_port :
    Instr.wellFormed .rcw (.byte 0x61#8) = false ∧ Instr.wellFormed .rcw .nop = false ∧
      Instr.wellFormed .rcw .init = false := by decide

theorem smoke_operations_on_their_ports :
    Instr.wellFormed .cw (.byte 0x61#8) = true ∧ Instr.wellFormed .rcw (.rcRoll 0x61#8) = true := by decide

theorem smoke_byte_operand : AsmLine.wellFormed (.byte 256) = false ∧
    AsmLine.wellFormed (.byte 255) = true := by decide

theorem smoke_rep_operand : AsmLine.wellFormed (.rep 2 256) = false := by decide

theorem smoke_bytes_operand : AsmLine.wellFormed (.bytes [Char.ofNat 0x80]) = false ∧
    AsmLine.wellFormed (.bytes [Char.ofNat 0x7F]) = true := by decide

theorem smoke_stream_operand : AsmLine.wellFormed (.stream [1, 256]) = false := by decide

/-- One parameter out of its range each (R18). -/
theorem smoke_illegal_configurations :
    [{ Config.default.toParams with windowSize := 0 }, { Config.default.toParams with windowSize := 65537 },
     { Config.default.toParams with charOffset := 4294967296 }, { Config.default.toParams with blobBits := 33 },
     { Config.default.toParams with maxBlobSize := 0 },
     { Config.default.toParams with maxBlobSize := 4294967296 },
     { Config.default.toParams with tooSmallThreshold := 4294967296 },
     { Config.default.toParams with offW := 0 }].map Config.ofParams =
      [none, none, none, none, none, none, none, none] := by decide

/-- A number of more than 10 bits is refused by name (log entry 10). -/
theorem smoke_number_wider_than_a_word :
    decodeWord 0x400 = .error .widerThanCommandWord ∧ decodeWord 0x3FF = .ok .init := by decide

/-! ### Decoding: bits `v op data` as 30_encoding.md R69 and R70 write them -/

theorem test_decode_nop : decodeCw 0b0_0_00000000#10 = .nop ∧ decodeCw 0b0_1_10101010#10 = .nop := by decide

theorem test_decode_byte : decodeCw 0b1_0_01100001#10 = .byte 0x61#8 ∧
    decodeCw 0b1_0_10000000#10 = .byte 128#8 := by decide

theorem test_decode_init : decodeCw 0b1_1_00000000#10 = .init ∧ decodeCw 0b1_1_00000001#10 = .init := by decide

theorem test_decode_rcHold : decodeRcw 0b0_0_00000000#10 = .rcHold ∧
    decodeRcw 0b0_1_00000001#10 = .rcHold := by decide

theorem test_decode_rcRoll : decodeRcw 0b1_0_01100001#10 = .rcRoll 0x61#8 ∧
    decodeRcw 0b1_0_00000001#10 = .rcRoll 1#8 := by decide

theorem test_decode_rcInit : decodeRcw 0b1_1_00000000#10 = .rcInit ∧
    decodeRcw 0b1_1_11111111#10 = .rcInit := by decide

theorem test_table_words : [0x000, 0x200, 0x300].map (decodeTableWord 16) =
    [some .nop, some (.byte 0), some .init] := by decide

/-- R78: the words of the notation, and R79's pseudo-instruction of P1. -/
theorem test_assembler_lines :
    assembleText ['I', 'N', 'I', 'T', ' ', commentMark, ' ', 'x'] = .ok [0x300#10] ∧
    assembleText ['B', 'Y', 'T', 'E', 'S', ' ', doubleQuote, 'a', 'b', 'c', doubleQuote] =
      .ok [0x261#10, 0x262#10, 0x263#10] ∧
    assembleText ['R', 'E', 'P', ' ', '2', commaMark, ' ', 'B', 'Y', 'T', 'E', ' ', '0', 'x', '0', '7'] =
      .ok [0x207#10, 0x207#10] ∧
    assembleText ['B', 'Y', 'T', 'E', ' ', '2', '5', '6'] = .error .operandOutOfRange := by decide

theorem test_assembler_refuses_unknown_line :
    assembleText ['H', 'A', 'L', 'T'] = .error .malformedLine ∧
    assembleProgram [['N', 'O', 'P'], [], ['I', 'D', 'L', 'E', ' ', '2']] =
      .ok [0x000#10, 0x000#10, 0x000#10] := by decide

/-! ### Single steps -/

/-- V1. -/
theorem test_rcInit_reads_no_state :
    ends (exec .rcInit (at_ (unit [(17, 0xAA#8)] 17 0xDEADBEEF#32 7#32) 5 6)) (fun t =>
      regs t = [0, 1984, 124992, 5, 6] && t.eng.rc.window = [] && !t.eng.rc.split) = true := by decide

/-- V14: the cursor wraps, the dropped byte is read before it is overwritten. -/
theorem test_rcRoll_wraps_cursor :
    ends (exec (.rcRoll 0x09#8) (at_ (unit [(63, 0x07#8)] 63 1991#32 125440#32) 5 6)) (fun t =>
      regs t = [0, 1993, 125001, 5, 6] && t.eng.rc.window = [(63, 0x09#8)]) = true := by decide

/-- V17: both sums wrap below zero, and a zero byte removes the cell's entry. -/
theorem test_rcRoll_wraps_sums :
    ends (exec (.rcRoll 0x00#8) (at_ (unit [(0, 0x05#8)] 0 0#32 0#32) 0 0)) (fun t =>
      regs t = [1, 0xFFFFFFFB, 0xFFFFF6FB, 0, 0] && t.eng.rc.window = []) = true := by decide

/-- V20. -/
theorem test_rcHold_is_identity : ends (exec .rcHold (at_ abc 3 3)) (fun t =>
    regs t = [3, 2278, 125578, 3, 3]) = true := by decide

/-- V33, with ignored bits set, presented on the command port. -/
theorem test_nop_changes_nothing :
    ends (step ((at_ abc 3 3).withFetchWord 16 0x1FF)) (fun t =>
      regs t = [3, 2278, 125578, 3, 3] && event t = none && t.eng.rc.window = abc.window) = true := by decide

/-- V34, with ignored bits set, presented on the command port. -/
theorem test_init_resets :
    ends (step ((at_ abc 3 3).withFetchWord 16 0x3FF)) (fun t =>
      regs t = [0, 1984, 124992, 0, 0] && event t = none && t.eng.rc.window = []) = true := by decide

/-- V27 to V30: the size gates, on a split candidate. -/
theorem test_byte_gates :
    [65534, 65535, 65536, 1048575].map (fun len =>
      ends (exec (.byte 0xD6#8) (stateA len 1000000)) (fun t =>
        t.eng.rc.s2 = 131071#32 && t.eng.gOff.toNat = 1000001 &&
          (event t, t.eng.curLen.toNat) =
            (if len < 65536 then (none, len + 1) else (some 1000000, 0)))) =
      [true, true, true, true] := by decide

/-- V36: the cap alone, and the offset counter wraps after it is used. -/
theorem test_byte_offset_wraps :
    ends (exec (.byte 0x00#8) (at_ (RcUnit.reset Config.default) 1048575 0xFFFFFFFFFFFFFFFF)) (fun t =>
      regs t = [1, 1984, 124992, 0, 0] && event t = some 0xFFFFFFFFFFFFFFFF) = true := by decide

/-- V40. -/
theorem test_reset_overrides_command :
    ends (step ((at_ abc 3 3).present ⟨true, 0x2FF#10⟩)) (fun t =>
      regs t = [0, 1984, 124992, 0, 0] && event t = none) = true := by decide

/-! ### Witnesses: each meets all hypotheses of the obligation it is named after -/

theorem witness_DecodeEncodeRoundTrip :
    (0x0AB#10).getLsbD 9 = false ∧ ((0x3A5#10).getLsbD 9 = true ∧ (0x3A5#10).getLsbD 8 = true) := by decide

theorem witness_IllegalConfigurationsRefused :
    Params.Legal Config.default.toParams ∧
      ¬Params.Legal { Config.default.toParams with windowSize := 65537 } := by decide

theorem witness_RegisterWidths : 2 ≤ Config.default.curW ∧ tiny.curW = 1 ∧ tiny.lenW = 1 := by decide

theorem witness_AssemblerNotation : (255 : Nat) ≤ 255 ∧ (255 : Nat) < 256 ∧
    assembleLine (.byte 255) = .ok [0x2FF#10] ∧ assembleLine (.byte 256) = .error .operandOutOfRange := by
  decide

theorem witness_PseudoInstructionExpansion :
    (∀ ch ∈ [Char.ofNat 0, Char.ofNat 0x7F], ch.toNat < 128) ∧ (∀ n ∈ [0, 255], n ≤ 255) ∧
      assembleLine (.rep 1 255) = .ok [0x2FF#10] ∧ assembleLine (.rep 0 7) = .ok [] := by
  refine ⟨fun ch h => ?_, by decide, by decide, by decide⟩
  rcases List.mem_pair.mp h with rfl | rfl <;> decide

theorem witness_RcInitResult : (at_ abc 3 3).cfg = Config.default := rfl

theorem witness_SumsWrapModulo :
    (unit [(0, 0x05#8)] 0 0#32 0#32).cursor.val = 0 ∧
      (unit [(0, 0x05#8)] 0 0#32 0#32).window = [(0, 0x05#8)] ∧
      (unit [] 0 0xFFFFFFFF#32 0#32).window = [] ∧ (unit [] 0 0xFFFFFFFF#32 0#32).s1 = 0xFFFFFFFF#32 := by
  decide

theorem witness_SplitIsLowBitsAllOnes :
    (unit [] 0 1#32 5#32).s2 = (unit [] 7 0#32 5#32).s2 ∧ tiny.blobBits = 0 ∧
      (Config.ofParams { Config.default.toParams with blobBits := 32 }).map (·.blobBits) = some 32 := by decide

theorem witness_CursorUpdateForms : 1 ≤ 6 ∧ State.reset.cfg.windowSize = 2 ^ 6 ∧
    (∃ s : State, s.cfg.windowSize = 2 ^ s.cfg.curW ∧ s.eng.rc.cursor.val + 1 = s.cfg.windowSize) :=
  ⟨by decide, by decide, at_ (unit [] 63 0#32 0#32) 0 0, by decide, by decide⟩

theorem sevens_sums : ∀ cursor : Fin 4,
    ((sevensRc cursor).s1.toNat = (small.windowSize * small.charOffset + (sevensRc cursor).total) % 2 ^ 32) ∧
      ((sevensRc cursor).s2.toNat = (small.windowSize * (small.windowSize - 1) * small.charOffset +
        (sevensRc cursor).weightedTotal) % 2 ^ 32) := by decide

theorem sevens_window : Memory.wf (sevensRc 0).window ∧ Memory.within small.windowSize (sevensRc 0).window := by
  decide

theorem sevens_inv (cursor : Fin 4) (len off : Nat) (h : len ≤ 7) : (sevens cursor len off).Inv :=
  { window := sevens_window, sum := (sevens_sums cursor).1, weightedSum := (sevens_sums cursor).2
    length := (Nat.mod_le _ _).trans h }

theorem nearSevens_inv : nearSevens.Inv :=
  { window := by unfold RcUnit.WindowWf; exact ⟨by decide, by decide⟩
    sum := by unfold RcUnit.SumHolds; decide
    weightedSum := by unfold RcUnit.WeightedSumHolds; decide
    length := by unfold Engine.LengthHolds; decide }

theorem witness_ConstantWindowSteadyState :
    (∀ i, i < small.windowSize → Memory.read (sevens 2 0 0).rc.window i = 0x07#8) ∧
      (sevens 2 0 0).rc.SumHolds ∧ (sevens 2 0 0).rc.WeightedSumHolds :=
  ⟨by decide, (sevens_inv 2 0 0 (by decide)).sum, (sevens_inv 2 0 0 (by decide)).weightedSum⟩

/-- Length 65537 is within the condition and 65536 outside it, in the default configuration. -/
theorem witness_ByteResult_BoundaryCondition :
    (stateA 65536 0).cfg = Config.default ∧
      ends (exec (.byte 0xD6#8) (stateA 65536 0)) (fun t => t.bnd.isSome) = true ∧
      ends (exec (.byte 0xD6#8) (stateA 65535 0)) (fun t => !t.bnd.isSome) = true := by decide

theorem witness_CommandFrames : (∃ t, exec .nop (at_ abc 3 3) = .next t) ∧
    (∃ t, exec (.byte 0x00#8) (at_ abc 3 3) = .next t) ∧ (∃ t, exec .init (at_ abc 3 3) = .next t) :=
  ⟨⟨_, rfl⟩, ⟨_, rfl⟩, ⟨_, rfl⟩⟩

/-- V28: the candidate's own length equals the threshold. -/
theorem witness_CandidateInSmallChunkIsLost :
    (stateA 65535 0).eng.curLen.toNat + 1 ≤ (stateA 65535 0).cfg.tooSmallThreshold ∧
      (stateA 65535 0).eng.curLen.toNat + 1 < (stateA 65535 0).cfg.maxBlobSize := by decide

theorem witness_PhaseTransitions :
    (State.resetOf tiny).eng.curLen.toNat ≤ tiny.maxBlobSize - 1 ∧ tiny.maxBlobSize = 1 ∧
      State.reset.eng.phase = .justClosed ∧ (stateA 65536 0).eng.curLen.toNat ≤ 1048575 ∧
      ends (exec (.byte 0xD6#8) (stateA 65536 0)) (fun t => event t ≠ none) = true ∧
      ends (exec (.byte 0xD6#8) State.reset) (fun t => event t = none) = true := by decide

theorem witness_StepRunsDecodedCommand :
    (State.reset.present ⟨false, 0x261#10⟩).pending = ⟨false, 0x261#10⟩ :: [] ∧
      decodeTableWord 16 0x261 = some (.byte 0x61#8) ∧ Instr.wellFormed .cw (.byte 0x61#8) = true := by decide

theorem witness_ResetOverridesCommand :
    ((at_ abc 3 3).present ⟨true, 0x2FF#10⟩).pending = ⟨true, 0x2FF#10⟩ :: [] := rfl

theorem witness_IdleHoldsState : (at_ abc 3 3).pending = [] := rfl

/-- The state of the obligations about one step of an invariant: BYTE 7 presented to four sevens. -/
def sevensStep : State := (smallAt (sevens 3 2 9)).present (.command 0x207#10)

theorem witness_invariants_and_step : sevensStep.eng.rc.WindowWf ∧ sevensStep.eng.rc.SumHolds ∧
    sevensStep.eng.rc.WeightedSumHolds ∧ sevensStep.eng.LengthHolds ∧
    ∃ t, step sevensStep = .next t ∧ event t = none ∧ t.eng.curLen.toNat = 3 :=
  have h := sevens_inv 3 2 9 (by decide)
  ⟨h.window, h.sum, h.weightedSum, h.length, _, rfl, by decide, by decide⟩

/-- At the other end of the range of CURLEN, the cap is reached. -/
theorem witness_ChunkLengthBoundKept : (sevens 3 7 9).LengthHolds ∧
    ∃ t, exec (.byte 0x07#8) (smallAt (sevens 3 7 9)) = .next t ∧ event t = some 9 :=
  ⟨(sevens_inv 3 7 9 (by decide)).length, _, rfl, by decide⟩

theorem witness_WindowRemembersEachStep :
    (State.resetOf small).eng.rc.Remembers [] ∧
      ∃ t, step ((State.resetOf small).present (.command 0x207#10)) = .next t :=
  ⟨fun _ _ => rfl, _, rfl⟩

theorem witness_Reachable_default : ∃ s, Reachable Config.default s ∧ s.eng.rc.s1 = 2081#32 :=
  ⟨_, ⟨[.command 0x261#10], rfl⟩, by decide⟩

/-- The bytes FF FF FF FF 00 6B FF have the weights 7 to 1, and 255·(7 + 6 + 5 + 4 + 1) + 107·2 = 6079,
so S2 = 124992 + 6079 = 131071: a reachable split candidate. -/
theorem witness_DefaultReachableRanges_split : ∃ s, Reachable Config.default s ∧ s.eng.rc.split = true ∧
    s.eng.rc.s2 = 131071#32 :=
  ⟨_, ⟨[.command 0x2FF#10, .command 0x2FF#10, .command 0x2FF#10, .command 0x2FF#10, .command 0x200#10,
    .command 0x26B#10, .command 0x2FF#10], rfl⟩, by decide, by decide⟩

/-- V29 and V28 at the ports: an event with its offset, and none. -/
theorem test_ports_after_byte :
    [65536, 65535].map (fun len => ends (exec (.byte 0xD6#8) (stateA len 1000000)) (fun t =>
      t.outputs.s1 = 2453#32 && t.outputs.s2 = 131071#32 && t.outputs.split &&
        t.outputs.gOff.toNat = 1000001 &&
        (t.outputs.bndOffset.map BitVec.toNat, t.outputs.curLen.toNat, t.outputs.bndValid) =
          (if len = 65536 then (some 1000000, 0, true) else (none, 65536, false)))) = [true, true] := by
  decide

theorem witness_PortsShowLastStep : (∃ t, exec .init (at_ abc 3 3) = .next t) ∧
    ∃ t, t = (at_ abc 3 3).takeReset := ⟨⟨_, rfl⟩, _, rfl⟩

theorem witness_NthRollAddressesCell :
    [1#8].length + 1 ≤ small.windowSize ∧ ¬[1#8, 2#8, 3#8, 4#8].length + 1 ≤ small.windowSize := by decide

theorem witness_SplitDependsOnWindowOnly : (sevens 0 0 0).Inv ∧ (sevens 3 5 9).Inv ∧
    ∀ k, k < small.windowSize → (sevens 0 0 0).rc.recent k = (sevens 3 5 9).rc.recent k :=
  ⟨sevens_inv _ _ _ (by decide), sevens_inv _ _ _ (by decide), by decide⟩

/-- V38 (b) and (a), as streams of the small configuration: one boundary, and none. -/
theorem witness_streams :
    (State.resetOf small).eng = Engine.reset (State.resetOf small).cfg ∧
      [0x200#10, 0x000#10, 0x200#10, 0x203#10].all isStreamWord = true ∧
      (streamBytes [0x200#10, 0x000#10, 0x200#10, 0x203#10]).length = 3 ∧
      ends (runWords [0x200#10, 0x000#10, 0x200#10, 0x203#10] (State.resetOf small))
        (fun t => event t = some 2) = true ∧
      ends (runWords [0x200#10, 0x203#10] (State.resetOf small)) (fun t => event t = none) = true := by
  refine ⟨rfl, ?_⟩
  decide

theorem witness_NopsChangeNothing :
    ([0x261#10, 0x0AB#10].map decodeCw).filter (· ≠ .nop) = ([0x000#10, 0x261#10].map decodeCw).filter (· ≠ .nop) := by
  decide

theorem witness_EmptyStreamNoBoundary : [0x000#10, 0x1FF#10].all (fun n => decodeCw n = .nop) = true := by
  decide

theorem witness_AllZeroStreamBoundaries :
    (State.resetOf small).eng = Engine.reset (State.resetOf small).cfg ∧
      (State.resetOf small).eng.rc.split = false ∧ 17 ≤ 2 ^ small.offW := by
  refine ⟨rfl, ?_⟩
  decide

/-- Two just-closed engines with the same offset and different bytes of closed chunks. -/
theorem witness_ClosedChunksDoNotInfluence :
    Config.default.windowSize ≤ Config.default.tooSmallThreshold + 1 ∧
      (Engine.reset Config.default).phase = .justClosed ∧
      (at_ (unit [(0, 0x61#8)] 1 2081#32 125089#32) 0 0).eng.phase = .justClosed ∧
      (at_ (unit [(0, 0x61#8)] 1 2081#32 125089#32) 0 0).eng.gOff = (Engine.reset Config.default).gOff :=
  ⟨by decide, by decide, by decide, rfl⟩

theorem witness_ClosedChunksDoNotInfluence_inv : (Engine.reset Config.default).Inv ∧
    (at_ (unit [(0, 0x61#8)] 1 2081#32 125089#32) 0 0).eng.Inv :=
  ⟨{ window := by unfold RcUnit.WindowWf; exact ⟨by decide, by decide⟩
     sum := by unfold RcUnit.SumHolds; decide +kernel
     weightedSum := by unfold RcUnit.WeightedSumHolds; decide +kernel
     length := by unfold Engine.LengthHolds; decide },
   { window := by unfold RcUnit.WindowWf; exact ⟨by decide, by decide⟩
     sum := by unfold RcUnit.SumHolds; decide +kernel
     weightedSum := by unfold RcUnit.WeightedSumHolds; decide +kernel
     length := by unfold Engine.LengthHolds; decide }⟩

theorem witness_SameChunkingShiftsOffsets : (sevens 0 2 0).SameChunking (sevens 3 2 9) ∧
    [0x207#10, 0x000#10].all isStreamWord = true :=
  ⟨{ recent := by decide, s1 := rfl, s2 := rfl, curLen := rfl }, by decide⟩

/-- Two engines that hold different oldest bytes and both emit on the next byte, by the cap. -/
theorem witness_CommonBoundaryResynchronises : (sevens 0 7 0).Inv ∧ nearSevens.Inv ∧
    (∀ k, k < 3 → (sevens 0 7 0).rc.recent k = nearSevens.rc.recent k) ∧ small.windowSize = 3 + 1 ∧
    (sevens 0 7 0).rc.recent 3 ≠ nearSevens.rc.recent 3 ∧
    (∃ t, exec (.byte 0x05#8) (smallAt (sevens 0 7 0)) = .next t ∧ ∃ (e : Engine small) (v : Boundary small),
      t = { smallAt (sevens 0 7 0) with eng := e, bnd := some v, observed := [] ++ [v] }) ∧
    ∃ u, exec (.byte 0x05#8) (smallAt nearSevens) = .next u ∧ ∃ (e : Engine small) (v : Boundary small),
      u = { smallAt (sevens 0 7 0) with eng := e, bnd := some v, observed := [] ++ [v] } :=
  ⟨sevens_inv _ _ _ (by decide), nearSevens_inv, by decide, rfl, by decide, ⟨_, rfl, _, _, rfl⟩,
   ⟨_, rfl, _, _, rfl⟩⟩

end Sys2Proof.Tests
end

section
/-! PROOF. The widths of the registers that index the window and count the chunk (00_scope.md R17). -/

namespace Sys2Proof.Config

variable (c : Config)

theorem one_le_curW : 1 ≤ c.curW := le_max_left ..

/-- CURW is the least width, from 1 up, that indexes the window. -/
theorem curW_le_iff {k : Nat} (hk : 1 ≤ k) : c.curW ≤ k ↔ c.windowSize ≤ 2 ^ k := by
  have hpos := c.windowSize_pos
  unfold curW
  split
  case isTrue hone =>
    have := Nat.one_le_two_pow (n := k)
    omega
  case isFalse hne =>
    have hlog : (c.windowSize - 1).log2 < k ↔ c.windowSize - 1 < 2 ^ k := Nat.log2_lt (by omega)
    omega

theorem windowSize_le_two_pow_curW : c.windowSize ≤ 2 ^ c.curW :=
  (c.curW_le_iff c.one_le_curW).mp le_rfl

theorem two_pow_pred_curW_lt (h : 2 ≤ c.curW) : 2 ^ (c.curW - 1) < c.windowSize := by
  have hleast := c.curW_le_iff (k := c.curW - 1) (by omega)
  omega

/-- The top one of the LENW bits is needed to write MaxBlobSize. -/
theorem two_pow_pred_lenW_le : 2 ^ (c.lenW - 1) ≤ c.maxBlobSize :=
  Nat.log2_self_le c.maxBlobSize_pos.ne'

end Sys2Proof.Config

namespace Sys2Proof

/-- Settles O5: CURW by its being the least index width, LENW by the bounds of the binary logarithm. -/
theorem registerWidths : Obligations.RegisterWidths := by
  unfold Obligations.RegisterWidths
  refine ⟨fun c => ⟨c.windowSize_le_two_pow_curW, c.one_le_curW, c.two_pow_pred_curW_lt,
    Machine.maxBlobSize_lt c, c.two_pow_pred_lenW_le⟩, ?_⟩
  decide

end Sys2Proof
end

section
/-! PROOF. The masks of the opcode table read as the fields of a word (30_encoding.md R65, R69, R70). -/

namespace Sys2Proof

variable (w : CmdWord)

theorem and_vMask_eq_zero_iff : w &&& 0x200#10 = 0x000#10 ↔ vField w = false := by
  change w &&& BitVec.twoPow 10 9 = _ ↔ _
  rw [BitVec.and_twoPow, ← vField]
  cases vField w <;> decide

/-- The mask of v and op keeps each of the two bits in its place. -/
theorem and_vOpMask : w &&& 0x300#10 =
    (if vField w then 0x200#10 else 0#10) ||| (if opField w then 0x100#10 else 0#10) := by
  change w &&& (BitVec.twoPow 10 9 ||| BitVec.twoPow 10 8) = _
  rw [BitVec.and_or_distrib_left, BitVec.and_twoPow, BitVec.and_twoPow, ← vField, ← opField]
  rfl

theorem and_vOpMask_eq_byte_iff :
    w &&& 0x300#10 = 0x200#10 ↔ vField w = true ∧ opField w = false := by
  rw [and_vOpMask]
  cases vField w <;> cases opField w <;> decide

theorem and_vOpMask_eq_init_iff :
    w &&& 0x300#10 = 0x300#10 ↔ vField w = true ∧ opField w = true := by
  rw [and_vOpMask]
  cases vField w <;> cases opField w <;> decide

/-- The data mask keeps the data field, zero-extended. -/
theorem and_dataMask : w &&& 0x0FF#10 = (dataField w).setWidth 10 := by
  have hmask : 0x0FF#10 = (BitVec.allOnes 8).setWidth 10 := rfl
  refine BitVec.eq_of_getLsbD_eq fun i _ => ?_
  rw [hmask, dataField, BitVec.getLsbD_and, BitVec.getLsbD_setWidth, BitVec.getLsbD_setWidth,
    BitVec.getLsbD_allOnes, BitVec.getLsbD_extractLsb', Nat.zero_add]
  cases w.getLsbD i <;> simp

/-- Zero extension of a byte to a word loses nothing. -/
theorem setWidth_byte_inj {a b : Byte} : a.setWidth 10 = b.setWidth 10 ↔ a = b :=
  ⟨fun h => by simpa using congrArg (BitVec.setWidth 8) h, fun h => by rw [h]⟩

/-- A word is made of what the two masks keep. -/
theorem and_vOpMask_or_and_dataMask : w &&& 0x300#10 ||| w &&& 0x0FF#10 = w := by
  rw [← BitVec.and_or_distrib_left]
  exact BitVec.and_allOnes

/-- The data bits of a canonical BYTE word do not meet its v bit, so adding is setting. -/
theorem encode_byte_eq_or (b : Byte) : encode (.byte b) = 0x200#10 ||| b.setWidth 10 := by
  refine BitVec.add_eq_or_of_and_eq_zero _ _ ?_
  rw [BitVec.and_comm, and_vMask_eq_zero_iff, vField, BitVec.getLsbD_setWidth]
  simp

end Sys2Proof
end

section
/-! PROOF. The decoders, each operation by its pattern, and the encoder on what they answer
(30_encoding.md R69, R70, R73). -/

namespace Sys2Proof

variable (w : CmdWord)

/-- The three kinds of word by their fields, with the operation each stands for on the two ports. -/
theorem decode_cases_of_fields :
    (vField w = false ∧ decodeCw w = .nop ∧ decodeRcw w = .rcHold) ∨
    (vField w = true ∧ opField w = false ∧
      decodeCw w = .byte (dataField w) ∧ decodeRcw w = .rcRoll (dataField w)) ∨
    (vField w = true ∧ opField w = true ∧ decodeCw w = .init ∧ decodeRcw w = .rcInit) := by
  unfold decodeCw decodeRcw
  cases vField w
  · exact .inl ⟨rfl, rfl, rfl⟩
  · cases opField w
    · exact .inr (.inl ⟨rfl, rfl, rfl, rfl⟩)
    · exact .inr (.inr ⟨rfl, rfl, rfl, rfl⟩)

theorem decodeCw_eq_nop_iff : decodeCw w = .nop ↔ w &&& 0x200#10 = 0x000#10 := by
  rw [and_vMask_eq_zero_iff]
  rcases decode_cases_of_fields w with ⟨hv, hd, -⟩ | ⟨hv, -, hd, -⟩ | ⟨hv, -, hd, -⟩ <;>
    simp [hv, hd]

theorem decodeCw_eq_init_iff : decodeCw w = .init ↔ w &&& 0x300#10 = 0x300#10 := by
  rw [and_vOpMask_eq_init_iff]
  rcases decode_cases_of_fields w with ⟨hv, hd, -⟩ | ⟨-, hop, hd, -⟩ | ⟨hv, hop, hd, -⟩
  · simp [hv, hd]
  · simp [hop, hd]
  · simp [hv, hop, hd]

theorem decodeCw_eq_byte_iff (b : Byte) :
    decodeCw w = .byte b ↔ w &&& 0x300#10 = 0x200#10 ∧ w &&& 0x0FF#10 = b.setWidth 10 := by
  rw [and_vOpMask_eq_byte_iff, and_dataMask, setWidth_byte_inj]
  rcases decode_cases_of_fields w with ⟨hv, hd, -⟩ | ⟨hv, hop, hd, -⟩ | ⟨-, hop, hd, -⟩
  · simp [hv, hd]
  · simp [hv, hop, hd]
  · simp [hop, hd]

/-- The RC unit's decoder answers the RC operation of the command of the same word (R70, R71). -/
theorem decodeRcw_iff_decodeCw :
    (decodeRcw w = .rcHold ↔ decodeCw w = .nop) ∧ (decodeRcw w = .rcInit ↔ decodeCw w = .init) ∧
      ∀ b : Byte, decodeRcw w = .rcRoll b ↔ decodeCw w = .byte b := by
  rcases decode_cases w with ⟨hc, hr⟩ | ⟨b, hc, hr⟩ | ⟨hc, hr⟩ <;> simp [hc, hr]

/-- A byte written as a number, in its canonical word (30_encoding.md R73). -/
theorem encode_byte_ofNat {n : Nat} (h : n ≤ 255) :
    encode (.byte (BitVec.ofNat 8 n)) = 0x200#10 + BitVec.ofNat 10 n := by
  rw [encode, BitVec.setWidth_ofNat_of_le_of_lt (by decide) (by omega)]

/-- Decoding the canonical word of an operation on its port gives the operation back (R73). -/
theorem decodeOn_encode : ∀ i : Instr, decodeOn i.format (encode i) = i
  | .nop => decodeCw_encode_nop
  | .byte b => decodeCw_encode_byte b
  | .init => decodeCw_encode_init
  | .rcHold => rfl
  | .rcRoll b => decodeRcw_encode_rcRoll b
  | .rcInit => rfl

/-- The operations of one word on the two ports have one canonical word. -/
theorem encode_decodeRcw : encode (decodeRcw w) = encode (decodeCw w) := by
  rcases decode_cases w with ⟨hc, hr⟩ | ⟨b, hc, hr⟩ | ⟨hc, hr⟩ <;> rw [hc, hr] <;> rfl

/-- A word that v and op make a BYTE has no ignored bits. -/
theorem encode_byte_dataField (hv : vField w = true) (hop : opField w = false) :
    encode (.byte (dataField w)) = w := by
  have hhigh := (and_vOpMask_eq_byte_iff w).mpr ⟨hv, hop⟩
  rw [encode_byte_eq_or, ← hhigh, ← and_dataMask, and_vOpMask_or_and_dataMask]

/-- Encoding what a command word decodes to clears the word's ignored bits (R73). -/
theorem encode_decodeCw : encode (decodeCw w) =
    if vField w = false then 0x000#10 else if opField w = false then w else 0x300#10 := by
  rcases decode_cases_of_fields w with ⟨hv, hd, -⟩ | ⟨hv, hop, hd, -⟩ | ⟨hv, hop, hd, -⟩
  · rw [hd, if_pos hv]
    rfl
  · rw [hd, if_neg (by simp [hv]), if_pos hop, encode_byte_dataField w hv hop]
  · rw [hd, if_neg (by simp [hv]), if_neg (by simp [hop])]
    rfl

theorem encode_decodeOn (f : Format) : encode (decodeOn f w) = encode (decodeCw w) := by
  cases f with
  | cw => rfl
  | rcw => exact encode_decodeRcw w

/-- On each port a word selects the row of the operation it decodes to, and no other (R69, R70). -/
theorem filter_selects_opcodeTable (f : Format) :
    opcodeTable.filter (fun row => row.format = f && row.selects w) = [(decodeOn f w).row] := by
  have hnop := and_vMask_eq_zero_iff w
  have hbyte := and_vOpMask_eq_byte_iff w
  have hinit := and_vOpMask_eq_init_iff w
  rcases decode_cases_of_fields w with ⟨hv, hc, hr⟩ | ⟨hv, hop, hc, hr⟩ | ⟨hv, hop, hc, hr⟩ <;>
    cases f <;> simp [opcodeTable, OpcodeRow.selects, Instr.row, decodeOn, *]

end Sys2Proof

namespace Sys2Proof.Machine

/-- A step with a command presented depends on the word through its operation only. -/
theorem step_present_congr (s : State) {w w' : CmdWord} (h : decodeCw w = decodeCw w') :
    step (s.present (.command w)) = step (s.present (.command w')) := by
  rw [step_present_command, step_present_command, h]

/-- No operation faults or is refused, in any state (60_exceptions.md R129). -/
theorem exec_completes (i : Instr) (s : State) : ∃ t, exec i s = .next t := by
  cases i with
  | nop => exact ⟨_, exec_nop s⟩
  | byte b => exact ⟨_, exec_byte s b⟩
  | init => exact ⟨_, exec_init s⟩
  | rcHold => exact ⟨_, exec_rcHold s⟩
  | rcRoll b => exact ⟨_, exec_rcRoll s b⟩
  | rcInit => exact ⟨_, exec_rcInit s⟩

end Sys2Proof.Machine

namespace Sys2Proof

/-- Settles O3: the round trip by operation, the ignored bits by the kinds of word; words that decode
alike step alike. -/
theorem decodeEncodeRoundTrip : Obligations.DecodeEncodeRoundTrip := by
  unfold Obligations.DecodeEncodeRoundTrip
  refine ⟨decodeOn_encode, ⟨rfl, rfl, fun _ => rfl⟩, fun f w => ?_, fun s w hv => ?_,
    fun s w hv hop => ?_⟩
  · exact (encode_decodeOn w f).trans (encode_decodeCw w)
  · exact Machine.step_present_congr s (decodeCw_of_v_false hv)
  · exact Machine.step_present_congr s (decodeCw_of_op_true hv hop)

end Sys2Proof
end

section
/-! PROOF. The 1024 command words in order: 512 NOP, 256 BYTE, 256 INIT (30_encoding.md R69). -/

namespace Sys2Proof

theorem decodeCw_ofNat_nop {n : Nat} (h : n < 512) : decodeCw (BitVec.ofNat 10 n) = .nop :=
  decodeCw_of_v_false (by rw [BitVec.getLsbD_ofNat, Nat.testBit_lt_two_pow h, Bool.and_false])

theorem decodeCw_ofNat_byte {n : Nat} (h : n < 256) :
    decodeCw (BitVec.ofNat 10 (512 + n)) = .byte (BitVec.ofNat 8 n) := by
  rw [BitVec.ofNat_add, ← encode_byte_ofNat (by omega), decodeCw_encode_byte]

theorem decodeCw_ofNat_init {n : Nat} (h : n < 256) : decodeCw (BitVec.ofNat 10 (768 + n)) = .init := by
  refine decodeCw_of_op_true ?_ ?_ <;>
    rw [BitVec.getLsbD_ofNat, Nat.testBit_eq_decide_div_mod_eq, Bool.and_eq_true, decide_eq_true_eq,
      decide_eq_true_eq] <;>
    omega

/-- What the command words decode to, in rising order. -/
theorem map_decodeCw_range : (List.range 1024).map (fun n => decodeCw (BitVec.ofNat 10 n)) =
    List.replicate 512 .nop ++ (((List.range 256).map (BitVec.ofNat 8)).map .byte ++
      List.replicate 256 .init) := by
  have hsplit : List.range 1024 =
      List.range 512 ++ ((List.range 256).map (512 + ·) ++ (List.range 256).map (768 + ·)) := by
    rw [show 1024 = 512 + 256 + 256 from rfl, List.range_add, List.range_add, List.append_assoc]
  rw [hsplit, List.map_append, List.map_append, List.map_map, List.map_map, List.map_map]
  refine congrArg₂ (· ++ ·) ?_ (congrArg₂ (· ++ ·) ?_ ?_)
  · refine List.eq_replicate_iff.mpr ⟨by rw [List.length_map, List.length_range], ?_⟩
    simp +contextual [decodeCw_ofNat_nop]
  · exact List.map_congr_left fun n hn => decodeCw_ofNat_byte (List.mem_range.mp hn)
  · refine List.eq_replicate_iff.mpr ⟨by rw [List.length_map, List.length_range], ?_⟩
    simp +contextual [decodeCw_ofNat_init]

/-- How often each command occurs in a run of NOPs, then BYTEs, then INITs. -/
theorem counts_of_nops_bytes_inits (k l : Nat) (bs : List Byte) :
    let is : List Instr := List.replicate k .nop ++ (bs.map .byte ++ List.replicate l .init)
    is.count .nop = k ∧ is.count .init = l ∧ is.countP (fun i => i ≠ .nop && i ≠ .init) = bs.length := by
  simp [List.count, List.countP_replicate, List.countP_map, Function.comp_def]

/-- Settles O2: the rows and patterns by the kinds of word, the counts from the words in order. -/
theorem everyWordSelectsOneRow : Obligations.EveryWordSelectsOneRow := by
  unfold Obligations.EveryWordSelectsOneRow
  refine ⟨fun f w => filter_selects_opcodeTable w f,
    fun w => ⟨decodeCw_eq_nop_iff w, decodeCw_eq_init_iff w, decodeCw_eq_byte_iff w⟩,
    fun w => ?_, ?_, fun w s => Machine.exec_completes _ s⟩
  · obtain ⟨hhold, hinit, hroll⟩ := decodeRcw_iff_decodeCw w
    exact ⟨hhold.trans (decodeCw_eq_nop_iff w), hinit.trans (decodeCw_eq_init_iff w),
      fun b => (hroll b).trans (decodeCw_eq_byte_iff w b)⟩
  · rw [map_decodeCw_range]
    have hcounts := counts_of_nops_bytes_inits 512 256 ((List.range 256).map (BitVec.ofNat 8))
    rwa [List.length_map, List.length_range] at hcounts

end Sys2Proof
end

section
/-! PROOF. The assembler: the words of an accepted line, and its operations (30_encoding.md R78, R79). -/

namespace Sys2Proof.Machine

theorem assembleLine_of_wellFormed {l : AsmLine} (h : l.wellFormed = true) :
    assembleLine l = .ok ((expandLine l).map encode) := if_pos h

/-- An accepted line's words are the canonical words of its expansion. -/
theorem eq_map_encode_of_assembleLine {l : AsmLine} {ws : List CmdWord} (h : assembleLine l = .ok ws) :
    ws = (expandLine l).map encode := by
  unfold assembleLine at h
  split at h
  · injection h with h
    exact h.symm
  · cases h

/-- A line expands to commands of the producer only. -/
theorem format_of_mem_expandLine {l : AsmLine} {i : Instr} (h : i ∈ expandLine l) : i.format = .cw := by
  cases l with
  | blank => cases h
  | nop | init | byte n => rw [List.mem_singleton.mp h]; rfl
  | rep n v | zeros n | idle n => rw [List.eq_of_mem_replicate h]; rfl
  | bytes cs | stream bs =>
    obtain ⟨_, -, rfl⟩ := List.mem_map.mp h
    rfl

/-- The canonical words of a list of commands decode to the list. -/
theorem map_decodeCw_map_encode {is : List Instr} (h : ∀ i ∈ is, i.format = .cw) :
    (is.map encode).map decodeCw = is := by
  rw [List.map_map]
  refine (List.map_congr_left fun i hi => ?_).trans (List.map_id is)
  have hround := decodeOn_encode i
  rwa [h i hi] at hround

/-- The canonical words of BYTE operations written as numbers. -/
theorem map_encode_map_byte {α : Type} (number : α → Nat) {xs : List α} (h : ∀ x ∈ xs, number x ≤ 255) :
    (xs.map (fun x => .byte (BitVec.ofNat 8 (number x)))).map encode =
      xs.map (fun x => 0x200#10 + BitVec.ofNat 10 (number x)) := by
  rw [List.map_map]
  exact List.map_congr_left fun x hx => encode_byte_ofNat (h x hx)

/-- Settles O7: the words by the form of the line, their decoding by the round trip of commands. -/
theorem pseudoInstructionExpansion : Obligations.PseudoInstructionExpansion := by
  unfold Obligations.PseudoInstructionExpansion
  refine ⟨fun n v hv => ?_, fun n => ?_, fun text hascii => ?_, fun bs hbytes => ?_, fun n => ?_,
    fun l ws h => ?_⟩
  · have hwf : (AsmLine.rep n v).wellFormed = true := decide_eq_true hv
    rw [assembleLine_of_wellFormed hwf, expandLine, List.map_replicate, encode_byte_ofNat hv]
  · exact (assembleLine_of_wellFormed rfl).trans (congrArg _ List.map_replicate)
  · have hwf : (AsmLine.bytes text).wellFormed = true :=
      List.all_eq_true.mpr fun ch hch => decide_eq_true (hascii ch hch)
    rw [assembleLine_of_wellFormed hwf, expandLine, map_encode_map_byte]
    exact fun ch hch => (hascii ch hch).le.trans (by decide)
  · have hwf : (AsmLine.stream bs).wellFormed = true :=
      List.all_eq_true.mpr fun n hn => decide_eq_true (hbytes n hn)
    rw [assembleLine_of_wellFormed hwf, expandLine, map_encode_map_byte _ hbytes]
  · exact (assembleLine_of_wellFormed rfl).trans (congrArg _ List.map_replicate)
  · rw [eq_map_encode_of_assembleLine h]
    exact ⟨map_decodeCw_map_encode fun _ => format_of_mem_expandLine,
      List.all_eq_true.mpr fun _ hi => decide_eq_true (format_of_mem_expandLine hi)⟩

end Sys2Proof.Machine
end

section
/-! PROOF. The sums after RC.ROLL: the exact integer result reduced once, and the same in wrapping
32-bit arithmetic (40_rollsum.md R82, R85, R86); the sums after RC.INIT (R81). -/

namespace Sys2Proof.Machine

variable {c : Config} (r : RcUnit c) (b : Byte)

/-- Reducing the integer that a vector denotes is zero extension or truncation (00_scope.md R19, R20). -/
theorem mod32_uint {n : Nat} (v : BitVec n) : mod32 (uint v) = v.setWidth 32 := by
  rw [mod32, uint, BitVec.ofInt_natCast, BitVec.ofNat_toNat]

theorem mod32_natCast (n : Nat) : mod32 n = BitVec.ofNat 32 n := BitVec.ofInt_natCast ..

theorem mod32_add (m n : Int) : mod32 (m + n) = mod32 m + mod32 n := BitVec.ofInt_add ..

theorem mod32_sub (m n : Int) : mod32 (m - n) = mod32 m - mod32 n := by
  rw [sub_eq_add_neg, mod32_add, sub_eq_add_neg]
  exact congrArg (mod32 m + ·) BitVec.ofInt_neg

theorem mod32_mul (m n : Int) : mod32 (m * n) = mod32 m * mod32 n := BitVec.ofInt_mul ..

theorem RcUnit.drop_eq_read : r.drop = Memory.read r.window r.cursor.val := rfl

theorem RcUnit.roll_s1_eq : (r.roll b).s1 = r.s1 + b.setWidth 32 - r.drop.setWidth 32 := by
  rw [RcUnit.roll_s1, mod32_sub, mod32_add, mod32_uint, mod32_uint, mod32_uint, BitVec.setWidth_eq]

theorem RcUnit.roll_s2_eq : (r.roll b).s2 = r.s2 + (r.roll b).s1 -
    BitVec.ofNat 32 c.windowSize * (r.drop.setWidth 32 + BitVec.ofNat 32 c.charOffset) := by
  rw [RcUnit.roll_s2, mod32_sub, mod32_add, mod32_mul, mod32_add, mod32_uint, mod32_uint, mod32_uint,
    mod32_natCast, mod32_natCast, BitVec.setWidth_eq, BitVec.setWidth_eq]

/-- `S2` after a roll from the old sums alone: the reduction of the new `S1` it reads makes no
difference (40_rollsum.md R86). -/
theorem RcUnit.roll_s2_toNat_of_old : ((r.roll b).s2.toNat : Int) =
    (r.s2.toNat + (r.s1.toNat + b.toNat - r.drop.toNat) -
      c.windowSize * (r.drop.toNat + c.charOffset)) % 2 ^ 32 := by
  rw [RcUnit.roll_s2_toNat, RcUnit.roll_s1_toNat]
  exact ((Int.mod_modEq _ _).add_left _).sub_right _

theorem RcUnit.init_s1_toNat : r.init.s1.toNat = c.windowSize * c.charOffset % 2 ^ 32 := by
  rw [RcUnit.init_eq_reset]
  exact BitVec.toNat_ofNat ..

theorem RcUnit.init_s2_toNat :
    r.init.s2.toNat = c.windowSize * (c.windowSize - 1) * c.charOffset % 2 ^ 32 := by
  rw [RcUnit.init_eq_reset]
  exact BitVec.toNat_ofNat ..

theorem RcUnit.init_default (h : c = Config.default) :
    r.init.s1 = 1984#32 ∧ r.init.s2 = 124992#32 ∧ r.init.split = false := by
  rw [RcUnit.init_eq_reset]
  subst h
  decide

end Sys2Proof.Machine
end

section
/-! PROOF. SPLIT as a mask comparison and as a property of the single bits of `S2`
(40_rollsum.md R84). -/

namespace Sys2Proof

theorem Config.getLsbD_blobMask (c : Config) (i : Nat) : c.blobMask.getLsbD i = decide (i < c.blobBits) := by
  have hbits : c.blobBits ≤ 32 := c.legal.2.2.1
  rw [blobMask, blobSize, BitVec.getLsbD_ofNat, Nat.testBit_two_pow_sub_one]
  rw [← Bool.decide_and, decide_eq_decide]
  omega

/-- A word keeps the whole BlobMask exactly when its low BlobBits bits are all ones. -/
theorem Machine.and_blobMask_eq_iff (c : Config) (v : Word32) :
    v &&& c.blobMask = c.splitMask ↔ ∀ i, i < c.blobBits → v.getLsbD i = true := by
  constructor
  · intro heq i hi
    have hbit := congrArg (·.getLsbD i) heq
    simpa [Config.splitMask, Config.getLsbD_blobMask, hi] using hbit
  · intro hones
    refine BitVec.eq_of_getLsbD_eq fun i _ => ?_
    rw [Config.splitMask, BitVec.getLsbD_and, Config.getLsbD_blobMask]
    by_cases hi : i < c.blobBits
    · simp [hi, hones i hi]
    · simp [hi]

end Sys2Proof

namespace Sys2Proof.Machine

variable {c : Config} (r : RcUnit c)

theorem RcUnit.split_iff_and_blobMask : r.split = true ↔ r.s2 &&& c.blobMask = c.splitMask :=
  decide_eq_true_iff

theorem RcUnit.split_iff_low_bits : r.split = true ↔ ∀ i, i < c.blobBits → r.s2.getLsbD i = true :=
  r.split_iff_and_blobMask.trans (and_blobMask_eq_iff c r.s2)

/-- With BlobBits 32 no bit of `S2` is left out of the comparison. -/
theorem RcUnit.split_iff_allOnes (h : c.blobBits = 32) : r.split = true ↔ r.s2 = 0xFFFFFFFF#32 := by
  have hmask : c.blobMask = 0xFFFFFFFF#32 := by rw [Config.blobMask, Config.blobSize, h]; rfl
  rw [RcUnit.split_iff_and_blobMask, Config.splitMask, hmask]
  change r.s2 &&& BitVec.allOnes 32 = _ ↔ _
  rw [BitVec.and_allOnes]

end Sys2Proof.Machine
end

section
/-! PROOF. The obligations of the RC unit (40_rollsum.md R81 to R86). -/

namespace Sys2Proof.Machine

/-- Settles O9: the sums in wrapping arithmetic, the window by reading after writing. -/
theorem rcRollResult : Obligations.RcRollResult := by
  unfold Obligations.RcRollResult
  intro s b
  refine ⟨s.eng.rc.roll b, exec_rcRoll s b, RcUnit.roll_s1_eq _ b, RcUnit.roll_s2_eq _ b, rfl, ?_, ?_,
    rfl, RcUnit.split_iff_and_blobMask _⟩
  · exact Memory.read_write_same
  · exact fun i hi => Memory.read_write_other hi

/-- Settles O11: one reduction of the exact results; the two examples by the wrapping form. -/
theorem sumsWrapModulo : Obligations.SumsWrapModulo := by
  unfold Obligations.SumsWrapModulo
  refine ⟨fun s b => ⟨s.eng.rc.roll b, exec_rcRoll s b, RcUnit.roll_s1_toNat _ b,
    RcUnit.roll_s2_toNat_of_old _ b⟩, fun r hwindow hcursor hs1 hs2 => ?_,
    fun r hwindow hcursor hs1 => ?_⟩
  · have hdrop : r.drop = 0x05#8 := by rw [RcUnit.drop_eq_read, hwindow, hcursor]; rfl
    rw [RcUnit.roll_s2_eq, RcUnit.roll_s1_eq, hdrop, hs1, hs2]
    decide
  · have hdrop : r.drop = 0x00#8 := by rw [RcUnit.drop_eq_read, hwindow, hcursor]; rfl
    rw [RcUnit.roll_s1_eq, hdrop, hs1]
    decide

/-- Settles O12: the bits of BlobMask are those below BlobBits. -/
theorem splitIsLowBitsAllOnes : Obligations.SplitIsLowBitsAllOnes := by
  unfold Obligations.SplitIsLowBitsAllOnes
  refine ⟨fun c r => r.split_iff_low_bits, fun c r q h => congrArg (splitOf c) h, fun c r h => ?_,
    fun c r h => r.split_iff_allOnes h, by decide⟩
  rw [RcUnit.split_iff_low_bits, h]
  exact fun i hi => absurd hi i.not_lt_zero

/-- Settles O8: RC.INIT leaves the reset state of the unit. -/
theorem rcInitResult : Obligations.RcInitResult := by
  unfold Obligations.RcInitResult
  intro s
  exact ⟨s.eng.rc.init, exec_rcInit s, fun i _ => Memory.read_nil, rfl, RcUnit.init_s1_toNat _,
    RcUnit.init_s2_toNat _, RcUnit.split_iff_and_blobMask _, RcUnit.init_default _⟩

/-- Settles O10: RC.HOLD hands the RC unit back as it is. -/
theorem rcHoldIsIdentity : Obligations.RcHoldIsIdentity := exec_rcHold

end Sys2Proof.Machine
end

section
/-! PROOF. The commands: BYTE by the boundary condition in numbers (41_chunker.md R95, R97), the low
bits of `S2` by which SPLIT is read, and INIT as the reset state (R94). -/

namespace Sys2Proof.Machine

variable {c : Config} (e : Engine c) (b : Byte)

/-- Whether BYTE `b` closes the chunk: the condition of R97 on the incremented CURLEN and the new `S2`. -/
def Engine.closes : Bool := boundaryCondition c (e.curLen + 1#c.lenW) (e.rc.roll b).split

/-- The condition in numbers (41_chunker.md R97). -/
theorem Engine.closes_iff : e.closes b = true ↔
    (e.curLen.toNat + 1) % 2 ^ c.lenW = c.maxBlobSize ∨ ((e.rc.roll b).split = true ∧
      c.tooSmallThreshold < (e.curLen.toNat + 1) % 2 ^ c.lenW) := by
  rw [Engine.closes, boundaryCondition_iff, Engine.incremented_toNat]

theorem Engine.byte_of_closes (h : e.closes b = true) : e.byte b =
    ({ rc := e.rc.roll b, curLen := 0#c.lenW, gOff := e.gOff + 1#c.offW }, some e.gOff) := by
  rcases e.byte_cases b with ⟨-, hbyte⟩ | ⟨hopen, -⟩
  · exact hbyte
  · exact absurd h (Bool.eq_false_iff.mp hopen)

theorem Engine.byte_of_not_closes (h : ¬e.closes b = true) : e.byte b =
    ({ rc := e.rc.roll b, curLen := e.curLen + 1#c.lenW, gOff := e.gOff + 1#c.offW }, none) := by
  rcases e.byte_cases b with ⟨hclosed, -⟩ | ⟨-, hbyte⟩
  · exact absurd hclosed h
  · exact hbyte

/-- The event of BYTE exists exactly on the boundary condition (41_chunker.md R97). -/
theorem Engine.byte_isSome_iff : (e.byte b).2.isSome = true ↔ e.closes b = true := by
  by_cases h : e.closes b = true
  · simp [h, e.byte_of_closes b h]
  · simp [h, e.byte_of_not_closes b h]

/-- A BYTE with an event emits GOFF from before its increment and starts a new chunk. -/
theorem Engine.byte_of_isSome (h : (e.byte b).2.isSome = true) :
    (e.byte b).2 = some e.gOff ∧ (e.byte b).1.curLen = 0#c.lenW := by
  rw [e.byte_of_closes b ((e.byte_isSome_iff b).mp h)]
  exact ⟨rfl, rfl⟩

/-- The low bits of a vector are all ones exactly when each of them is one. -/
theorem extractLsb'_zero_eq_allOnes_iff {m n : Nat} (v : BitVec m) :
    v.extractLsb' 0 n = BitVec.allOnes n ↔ ∀ i, i < n → v.getLsbD i = true := by
  constructor
  · intro heq i hi
    have hbit := congrArg (·.getLsbD i) heq
    simpa [hi] using hbit
  · intro hones
    refine BitVec.eq_of_getLsbD_eq fun i hi => ?_
    simp [hi, hones i hi]

/-- SPLIT of the default configuration, as the low 17 bits of `S2` (40_rollsum.md R84). -/
theorem RcUnit.split_default_iff (r : RcUnit c) (h : c = Config.default) :
    r.split = true ↔ r.s2.extractLsb' 0 17 = 0x1FFFF#17 := by
  have hbits : c.blobBits = 17 := by rw [h]; rfl
  rw [RcUnit.split_iff_low_bits, hbits]
  exact (extractLsb'_zero_eq_allOnes_iff r.s2).symm

/-- INIT does to the machine what reset does (41_chunker.md R94, 70_reset_and_hazards.md R130). -/
theorem exec_init_eq_takeReset (s : State) : exec .init s = .next s.takeReset := by
  rw [exec_init, Engine.init_eq_reset]
  rfl

end Sys2Proof.Machine
end

section
/-! PROOF. NOPs in command streams. The commands read no event port, so runs are compared with that
port left out (41_chunker.md R96, R105, R106). -/

namespace Sys2Proof.Machine

/-- A state with its event port left out. -/
def State.withoutEvent (s : State) : State := { s with bnd := none }

theorem exec_nop_eq_withoutEvent (s : State) : exec .nop s = .next s.withoutEvent := exec_nop s

theorem State.withoutEvent_idem (s : State) : s.withoutEvent.withoutEvent = s.withoutEvent := rfl

theorem State.withoutEvent_of_bnd_none {s : State} (h : s.bnd = none) : s.withoutEvent = s := by
  rw [State.withoutEvent, ← h]

/-- Every command sets the event port and none reads it (10_state.md R34). -/
theorem exec_decodeCw_withoutEvent (w : CmdWord) (s : State) :
    exec (decodeCw w) s.withoutEvent = exec (decodeCw w) s := by
  rcases decode_cases w with ⟨hd, -⟩ | ⟨b, hd, -⟩ | ⟨hd, -⟩ <;> rw [hd] <;> rfl

theorem exec_decodeCw_congr {s s' : State} (h : s.withoutEvent = s'.withoutEvent) (w : CmdWord) :
    exec (decodeCw w) s = exec (decodeCw w) s' := by
  rw [← exec_decodeCw_withoutEvent w s, h, exec_decodeCw_withoutEvent]

/-- A run depends on its words through their commands only (30_encoding.md R73). -/
theorem runWords_congr {ws vs : List CmdWord} (h : ws.map decodeCw = vs.map decodeCw) (s : State) :
    runWords ws s = runWords vs s := by
  induction ws generalizing vs s with
  | nil => rw [List.map_eq_nil_iff.mp h.symm]
  | cons w ws ih =>
    obtain ⟨v, vs, rfl, hhead, htail⟩ := List.map_eq_cons_iff.mp h.symm
    obtain ⟨t, ht⟩ := exec_completes (decodeCw w) s
    rw [runWords_cons w ws s t ht, runWords_cons v vs s t (hhead ▸ ht), ih htail.symm]

/-- Leaving the NOPs out of a stream keeps the final state, the event port aside; so does beginning in
a state that differs in the event port. -/
theorem runWords_filter_nops (ws : List CmdWord) {s s' : State}
    (h : s.withoutEvent = s'.withoutEvent) :
    ∃ t t' : State, runWords ws s = .next t ∧
      runWords (ws.filter (decodeCw · ≠ .nop)) s' = .next t' ∧ t.withoutEvent = t'.withoutEvent := by
  induction ws generalizing s s' with
  | nil => exact ⟨s, s', rfl, rfl, h⟩
  | cons w ws ih =>
    by_cases hnop : decodeCw w = .nop
    · have hexec : exec (decodeCw w) s = .next s.withoutEvent := hnop ▸ exec_nop_eq_withoutEvent s
      rw [runWords_cons w ws s _ hexec, List.filter_cons_of_neg (by simp [hnop])]
      exact ih (s.withoutEvent_idem.trans h)
    · obtain ⟨r, hr⟩ := exec_completes (decodeCw w) s
      have hr' : exec (decodeCw w) s' = .next r := exec_decodeCw_congr h w ▸ hr
      rw [runWords_cons w ws s r hr, List.filter_cons_of_pos (by simp [hnop]),
        runWords_cons w _ s' r hr']
      exact ih rfl

/-- NOPs hold a state that shows no event (41_chunker.md R96). -/
theorem runWords_nops {nops : List CmdWord} (h : ∀ n ∈ nops, decodeCw n = .nop) {s : State}
    (hs : s.bnd = none) : runWords nops s = .next s := by
  induction nops with
  | nil => rfl
  | cons n nops ih =>
    obtain ⟨hn, hrest⟩ := List.forall_mem_cons.mp h
    have hexec : exec (decodeCw n) s = .next s := by
      rw [hn, exec_nop_eq_withoutEvent, State.withoutEvent_of_bnd_none hs]
    rw [runWords_cons n nops s s hexec, ih hrest]

end Sys2Proof.Machine
end

section
/-! PROOF. The obligations of the commands and of NOPs in streams (41_chunker.md R94 to R97, R105,
R106). -/

namespace Sys2Proof.Machine

/-- Settles O16: the roll is that of RC.ROLL; the two cases by the boundary condition. -/
theorem byteResult : Obligations.ByteResult := by
  unfold Obligations.ByteResult
  intro s b
  refine ⟨s.eng.rc.roll b, exec_rcRoll s b, fun hcut => ?_, fun hopen => ?_⟩
  · rw [exec_byte, s.eng.byte_of_closes b ((s.eng.closes_iff b).mpr hcut)]
    rfl
  · have hlen : s.eng.curLen + 1#s.cfg.lenW =
        BitVec.ofNat s.cfg.lenW ((s.eng.curLen.toNat + 1) % 2 ^ s.cfg.lenW) := by
      rw [← Engine.incremented_toNat, BitVec.ofNat_toNat, BitVec.setWidth_eq]
    rw [exec_byte, s.eng.byte_of_not_closes b (mt (s.eng.closes_iff b).mp hopen), hlen,
      Option.toList_none, List.append_nil]

/-- Settles O17: the event by the boundary condition; by default SPLIT by the low 17 bits of `S2`. -/
theorem byteBoundaryCondition : Obligations.BoundaryCondition := by
  unfold Obligations.BoundaryCondition
  intro s b
  have hiff := (s.eng.byte_isSome_iff b).trans (s.eng.closes_iff b)
  refine ⟨_, exec_byte s b, hiff, fun hevent => ?_, fun hdefault => ?_⟩
  · obtain ⟨hoffset, hlen⟩ := s.eng.byte_of_isSome b hevent
    simp [hoffset, hlen]
  · have hcap : s.cfg.maxBlobSize = 1048576 := by rw [hdefault]; rfl
    have hthreshold : s.cfg.tooSmallThreshold = 65536 := by rw [hdefault]; rfl
    rw [hcap, hthreshold, RcUnit.split_default_iff _ hdefault] at hiff
    exact hiff

/-- Settles O41: both streams end as their common stream without NOPs does. -/
theorem nopsChangeNothing : Obligations.NopsChangeNothing := by
  unfold Obligations.NopsChangeNothing
  refine ⟨exec_nop, fun s ws vs h => ?_⟩
  obtain ⟨t, t', ht, ht', htt'⟩ := runWords_filter_nops ws (s := s) rfl
  obtain ⟨u, u', hu, hu', huu'⟩ := runWords_filter_nops vs (s := s) rfl
  have hsame : t' = u' := by
    rw [List.filter_map, List.filter_map] at h
    have hrun := runWords_congr h s
    exact Host.Outcome.next.inj (ht'.symm.trans (hrun.trans hu'))
  exact ⟨t, u, ht, hu, htt'.trans (hsame ▸ huu'.symm)⟩

/-- Settles O42: INIT or reset takes the reset state, and the NOPs hold it. -/
theorem emptyStreamNoBoundary : Obligations.EmptyStreamNoBoundary := by
  unfold Obligations.EmptyStreamNoBoundary
  intro s w nops hall
  have hheld : runWords nops s.takeReset = .next s.takeReset :=
    runWords_nops (by simpa using hall) s.takeReset_bnd
  exact ⟨(runWords_cons 0x300#10 nops s _ (exec_init_eq_takeReset s)).trans hheld,
    (run_cons _ _ s _ (step_present_rst s w)).trans hheld⟩

/-- Settles O15: INIT takes the reset state; the table is that state's definition, its sums reduced. -/
theorem initResult : Obligations.InitResult := by
  unfold Obligations.InitResult
  refine ⟨exec_init_eq_takeReset, fun c => ⟨rfl, rfl, fun i => Memory.read_nil, rfl,
    BitVec.toNat_ofNat .., BitVec.toNat_ofNat .., BitVec.toNat_ofNat .., BitVec.toNat_ofNat ..,
    RcUnit.split_iff_and_blobMask _⟩, rfl, ?_⟩
  decide

end Sys2Proof.Machine
end

section
/-! PROOF. A step as a function of the engine and of the input at the ports, and runs of it: the engine
after the inputs and the events it emits (00_scope.md R24). The properties of steps, reachable states
and streams are proved of these functions and carried to `step` and `run` here. -/

namespace Sys2Proof.Machine

variable {c : Config}

/-- What the engine makes of the input of one step: its next state and its event. The RC operations are
no commands of the producer (10_state.md R32), so no word decodes to them. -/
def Engine.respond (e : Engine c) (p : PortInput) : Engine c × Option (Boundary c) :=
  if p.rst then (Engine.reset c, none)
  else match decodeCw p.cw with
    | .byte b => e.byte b
    | .init => e.init
    | .nop | .rcHold | .rcRoll _ | .rcInit => e.nop

/-- The engine after the inputs `ps`. -/
def Engine.after (ps : List PortInput) (e : Engine c) : Engine c :=
  ps.foldl (fun e p => (e.respond p).1) e

/-- The events of the inputs `ps`, oldest first. -/
def Engine.events : List PortInput → Engine c → List (Boundary c)
  | [], _ => []
  | p :: ps, e => (e.respond p).2.toList ++ Engine.events ps (e.respond p).1

@[simp] theorem Engine.after_nil (e : Engine c) : e.after [] = e := rfl
@[simp] theorem Engine.after_cons (p : PortInput) (ps : List PortInput) (e : Engine c) :
    e.after (p :: ps) = (e.respond p).1.after ps := rfl
@[simp] theorem Engine.events_nil (e : Engine c) : e.events [] = [] := rfl
@[simp] theorem Engine.events_cons (p : PortInput) (ps : List PortInput) (e : Engine c) :
    e.events (p :: ps) = (e.respond p).2.toList ++ (e.respond p).1.events ps := rfl

/-- The input of one step makes every engine take reset, or every engine hold, or every engine
take in one byte; the history of fed bytes goes along. -/
theorem respond_cases (c : Config) (p : PortInput) :
    ((∀ e : Engine c, e.respond p = (Engine.reset c, none)) ∧ ∀ h, fed h p = []) ∨
    ((∀ e : Engine c, e.respond p = (e, none)) ∧ ∀ h, fed h p = h) ∨
    ∃ b, (∀ e : Engine c, e.respond p = e.byte b) ∧ ∀ h, fed h p = b :: h := by
  cases hr : p.rst with
  | true => exact .inl ⟨fun e => by simp [Engine.respond, hr], fun h => by simp [fed, hr]⟩
  | false =>
    rcases decode_cases p.cw with ⟨hc, hrc⟩ | ⟨b, hc, hrc⟩ | ⟨hc, hrc⟩
    · exact .inr (.inl ⟨fun e => by simp [Engine.respond, hr, hc], fun h => by simp [fed, hr, hrc]⟩)
    · exact .inr (.inr ⟨b, fun e => by simp [Engine.respond, hr, hc], fun h => by simp [fed, hr, hrc]⟩)
    · exact .inl ⟨fun e => by simp [Engine.respond, hr, hc, Engine.init_eq_reset],
        fun h => by simp [fed, hr, hrc]⟩

theorem Engine.respond_nop {w : CmdWord} (h : decodeCw w = .nop) (e : Engine c) :
    e.respond (.command w) = (e, none) := by
  simp [Engine.respond, h]

theorem Engine.respond_byte {w : CmdWord} {b : Byte} (h : decodeCw w = .byte b) (e : Engine c) :
    e.respond (.command w) = e.byte b := by
  simp [Engine.respond, h]

/-- A step uses up the input at the ports; the engine's response to it is the next engine state and
the step's event (00_scope.md R24). -/
theorem step_eq_respond (s : State) : step s = .next { s with
    eng := (s.eng.respond s.portInput).1, bnd := (s.eng.respond s.portInput).2,
    observed := s.observed ++ (s.eng.respond s.portInput).2.toList, pending := s.pending.tail } := by
  unfold step Engine.respond
  cases s.portInput.rst with
  | true => simp [State.takeReset, State.dropInput]
  | false => rcases decode_cases s.portInput.cw with ⟨hd, -⟩ | ⟨b, hd, -⟩ | ⟨hd, -⟩ <;> rw [hd] <;> rfl

theorem step_present (s : State) (p : PortInput) : step (s.present p) = .next { s with
    eng := (s.eng.respond p).1, bnd := (s.eng.respond p).2,
    observed := s.observed ++ (s.eng.respond p).2.toList } := step_eq_respond _

theorem eq_of_step {s t : State} (h : step s = .next t) : t = { s with
    eng := (s.eng.respond s.portInput).1, bnd := (s.eng.respond s.portInput).2,
    observed := s.observed ++ (s.eng.respond s.portInput).2.toList, pending := s.pending.tail } :=
  Host.Outcome.next.inj (h.symm.trans (step_eq_respond s))

/-- A property of engines that every response keeps is kept by every step. -/
theorem step_keeps {P : {c : Config} → Engine c → Prop}
    (hkeep : ∀ {c : Config} (e : Engine c) (p : PortInput), P e → P (e.respond p).1)
    {s t : State} (hs : P s.eng) (h : step s = .next t) : P t.eng := by
  rw [eq_of_step h]
  exact hkeep s.eng s.portInput hs

/-- What reset establishes and every byte keeps, every response keeps. -/
theorem Engine.respond_keeps {P : Engine c → Prop} (hreset : P (Engine.reset c)) {e : Engine c}
    (hbyte : ∀ b, P (e.byte b).1) (he : P e) (p : PortInput) : P (e.respond p).1 := by
  rcases respond_cases c p with ⟨h, -⟩ | ⟨h, -⟩ | ⟨b, h, -⟩ <;> rw [h]
  · exact hreset
  · exact he
  · exact hbyte b

/-- What every response keeps holds after any inputs. -/
theorem Engine.after_keeps {P : Engine c → Prop} (hkeep : ∀ e p, P e → P (e.respond p).1)
    (ps : List PortInput) {e : Engine c} (he : P e) : P (e.after ps) := by
  induction ps generalizing e with
  | nil => exact he
  | cons p ps ih => exact ih (hkeep e p he)

/-- The event at the port after the inputs `ps`, if it was `ev` before them. -/
def Engine.lastEvent (ev : Option (Boundary c)) (ps : List PortInput) (e : Engine c) :
    Option (Boundary c) :=
  (ps.foldl (fun r p => r.1.respond p) (e, ev)).2

/-- Every run completes. It leaves the engine after its inputs, the event of the last of them, and adds
the events to the consumer's record (00_scope.md R24, 60_exceptions.md R129). -/
theorem run_eq (ps : List PortInput) (s : State) : run ps s = .next { s with
    eng := s.eng.after ps, bnd := s.eng.lastEvent s.bnd ps, observed := s.observed ++ s.eng.events ps } := by
  induction ps generalizing s with
  | nil => simp [Engine.lastEvent]
  | cons p ps ih =>
    rw [run_cons p ps s _ (step_present s p), ih]
    simp [Engine.lastEvent]

end Sys2Proof.Machine
end

section
/-! PROOF. The invariants of the reachable states: reset establishes each of them and every byte keeps
it (10_state.md R41 to R46). -/

namespace Sys2Proof.Machine

variable {c : Config}

theorem RcUnit.total_reset : (RcUnit.reset c).total = 0 := Finset.sum_eq_zero fun _ _ => rfl

theorem RcUnit.weightedTotal_reset : (RcUnit.reset c).weightedTotal = 0 := Finset.sum_eq_zero fun _ _ => rfl

theorem RcUnit.windowWf_reset : (RcUnit.reset c).WindowWf := ⟨Memory.wf_zeros, Memory.within_zeros⟩

theorem RcUnit.sumHolds_reset : (RcUnit.reset c).SumHolds := by
  rw [RcUnit.SumHolds, RcUnit.total_reset]
  exact BitVec.toNat_ofNat ..

theorem RcUnit.weightedSumHolds_reset : (RcUnit.reset c).WeightedSumHolds := by
  rw [RcUnit.WeightedSumHolds, RcUnit.weightedTotal_reset]
  exact BitVec.toNat_ofNat ..

theorem Engine.lengthHolds_reset : (Engine.reset c).LengthHolds := Nat.zero_le _

/-- The new byte enters `S1` and the total, the dropped byte leaves both (10_state.md R42). -/
theorem RcUnit.sumHolds_roll {r : RcUnit c} (h : r.SumHolds) (b : Byte) : (r.roll b).SumHolds := by
  have hs1 := r.roll_s1_toNat b
  have htotal := r.total_roll b
  unfold RcUnit.SumHolds at h ⊢
  omega

/-- `S2` gains the new `S1` and loses `W·(drop + C)`. The bias `W·C` in `S1` cancels against the one
taken off, and what is left is the change of the weighted total (10_state.md R43). -/
theorem RcUnit.weightedSumHolds_roll {r : RcUnit c} (h : r.SumHolds) (hw : r.WeightedSumHolds) (b : Byte) :
    (r.roll b).WeightedSumHolds := by
  have hs1 := RcUnit.sumHolds_roll h b
  have hs2 := r.roll_s2_toNat b
  have hweighted := r.weightedTotal_roll b
  simp only [mul_add, ← Nat.cast_mul] at hs2
  unfold RcUnit.SumHolds at hs1
  unfold RcUnit.WeightedSumHolds at hw ⊢
  generalize c.windowSize * c.charOffset = bias at *
  generalize c.windowSize * r.drop.toNat = dropped at *
  generalize c.windowSize * (c.windowSize - 1) * c.charOffset = base at *
  omega

/-- A byte that closes no chunk leaves CURLEN below the cap, since its reaching the cap closes one
(10_state.md R46). -/
theorem Engine.byte_curLen_of_not_closes {e : Engine c} (h : e.LengthHolds) {b : Byte}
    (hopen : ¬e.closes b = true) :
    (e.byte b).1.curLen.toNat = e.curLen.toNat + 1 ∧ e.curLen.toNat + 1 < c.maxBlobSize := by
  have hlen := Engine.incremented_of_lengthHolds h
  have hne : e.curLen.toNat + 1 ≠ c.maxBlobSize := by
    rw [← hlen, Engine.incremented_toNat]
    exact fun heq => hopen ((e.closes_iff b).mpr (.inl heq))
  rw [e.byte_of_not_closes b hopen]
  unfold Engine.LengthHolds at h
  have := c.maxBlobSize_pos
  exact ⟨hlen, by omega⟩

theorem Engine.lengthHolds_byte {e : Engine c} (h : e.LengthHolds) (b : Byte) : (e.byte b).1.LengthHolds := by
  unfold Engine.LengthHolds
  by_cases hcut : e.closes b = true
  · rw [e.byte_of_closes b hcut]
    exact Nat.zero_le _
  · obtain ⟨hlen, hlt⟩ := Engine.byte_curLen_of_not_closes h hcut
    omega

/-- The reset state meets every invariant (10_state.md R45). -/
theorem Engine.inv_reset : (Engine.reset c).Inv where
  window := RcUnit.windowWf_reset
  sum := RcUnit.sumHolds_reset
  weightedSum := RcUnit.weightedSumHolds_reset
  length := Engine.lengthHolds_reset

theorem Engine.inv_byte {e : Engine c} (h : e.Inv) (b : Byte) : (e.byte b).1.Inv where
  window := RcUnit.windowWf_roll h.window b
  sum := RcUnit.sumHolds_roll h.sum b
  weightedSum := RcUnit.weightedSumHolds_roll h.sum h.weightedSum b
  length := Engine.lengthHolds_byte h.length b

theorem Engine.inv_respond {e : Engine c} (h : e.Inv) (p : PortInput) : (e.respond p).1.Inv :=
  Engine.respond_keeps Engine.inv_reset (Engine.inv_byte h) h p

theorem Engine.inv_after_reset (ps : List PortInput) : ((Engine.reset c).after ps).Inv :=
  Engine.after_keeps (P := Engine.Inv) (fun _ p he => Engine.inv_respond he p) ps Engine.inv_reset

/-- A reachable state has the configuration it began with, and an engine that meets every invariant. -/
theorem Reachable.exists_inv {s : State} (h : Reachable c s) :
    ∃ (e : Engine c) (ev : Option (Boundary c)) (vs : List (Boundary c)),
      e.Inv ∧ s = ⟨c, e, ev, vs, []⟩ := by
  obtain ⟨ps, hrun⟩ := h
  rw [run_eq] at hrun
  exact ⟨(Engine.reset c).after ps, _, _, Engine.inv_after_reset ps, (Host.Outcome.next.inj hrun).symm⟩

end Sys2Proof.Machine
end

section
/-! PROOF. The bounds of the totals, and the sums of the default configuration, which never reach
`2^32` (10_state.md R42 to R44). -/

namespace Sys2Proof.Machine

variable {c : Config}

theorem RcUnit.total_le (r : RcUnit c) : r.total ≤ ∑ _i ∈ Finset.range c.windowSize, 255 :=
  Finset.sum_le_sum fun _ _ => Nat.le_of_lt_succ (BitVec.isLt _)

theorem RcUnit.weightedTotal_le (r : RcUnit c) :
    r.weightedTotal ≤ ∑ k ∈ Finset.range c.windowSize, (k + 1) * 255 :=
  Finset.sum_le_sum fun k _ => Nat.mul_le_mul_left (k + 1) (Nat.le_of_lt_succ (BitVec.isLt _))

theorem RcUnit.total_default_le (r : RcUnit Config.default) : r.total ≤ 16320 := r.total_le

theorem RcUnit.weightedTotal_default_le (r : RcUnit Config.default) : r.weightedTotal ≤ 530400 :=
  r.weightedTotal_le

theorem RcUnit.s1_default {r : RcUnit Config.default} (h : r.SumHolds) : r.s1.toNat = 1984 + r.total := by
  have hle := r.total_default_le
  have hs1 : r.s1.toNat = (1984 + r.total) % 2 ^ 32 := h
  omega

theorem RcUnit.s2_default {r : RcUnit Config.default} (h : r.WeightedSumHolds) :
    r.s2.toNat = 124992 + r.weightedTotal := by
  have hle := r.weightedTotal_default_le
  have hs2 : r.s2.toNat = (124992 + r.weightedTotal) % 2 ^ 32 := h
  omega

/-- Settles O29: reset leaves the empty window, and a roll writes a cell that exists. -/
theorem windowStaysCanonical : Obligations.WindowStaysCanonical := by
  unfold Obligations.WindowStaysCanonical
  intro s t hwf hstep
  refine step_keeps (P := fun e => e.rc.WindowWf) (fun e p he => ?_) hwf hstep
  exact Engine.respond_keeps (P := fun e => e.rc.WindowWf) RcUnit.windowWf_reset
    (RcUnit.windowWf_roll he) he p

/-- Settles O30: reset and every roll give a unit with the invariant; by default the sum stays
below `2^32`. -/
theorem sumInvariantKept : Obligations.SumInvariantKept := by
  unfold Obligations.SumInvariantKept
  refine ⟨fun s t hsum hstep => ?_, fun s hreach => ?_⟩
  · refine step_keeps (P := fun e => e.rc.SumHolds) (fun e p he => ?_) hsum hstep
    exact Engine.respond_keeps (P := fun e => e.rc.SumHolds) RcUnit.sumHolds_reset
      (RcUnit.sumHolds_roll he) he p
  · obtain ⟨e, ev, vs, hinv, rfl⟩ := hreach.exists_inv
    exact RcUnit.s1_default hinv.sum

/-- Settles O31: the two sum invariants are kept together, since `S2` reads the new `S1`. -/
theorem weightedSumInvariantKept : Obligations.WeightedSumInvariantKept := by
  unfold Obligations.WeightedSumInvariantKept
  refine ⟨fun s t hsum hweighted hstep => ?_, fun s hreach => ?_⟩
  · refine (step_keeps (P := fun e => e.rc.SumHolds ∧ e.rc.WeightedSumHolds) (fun e p he => ?_)
      ⟨hsum, hweighted⟩ hstep).2
    exact Engine.respond_keeps (P := fun e => e.rc.SumHolds ∧ e.rc.WeightedSumHolds)
      ⟨RcUnit.sumHolds_reset, RcUnit.weightedSumHolds_reset⟩
      (fun b => ⟨RcUnit.sumHolds_roll he.1 b, RcUnit.weightedSumHolds_roll he.1 he.2 b⟩) he p
  · obtain ⟨e, ev, vs, hinv, rfl⟩ := hreach.exists_inv
    exact RcUnit.s2_default hinv.weightedSum

/-- Settles O28: reset meets every invariant. -/
theorem resetMeetsInvariants : Obligations.ResetMeetsInvariants := fun _ => Engine.inv_reset

end Sys2Proof.Machine
end

section
/-! PROOF. RC.ROLL: the cursor as an increment (40_rollsum.md R88), the steady state of a constant
window (R90, R91), the dependence on the window alone (R93), and the default ranges (R44, R87). -/

namespace Sys2Proof.Machine

variable {c : Config}

theorem curW_of_windowSize_eq_two_pow {k : Nat} (hk : 1 ≤ k) (h : c.windowSize = 2 ^ k) :
    c.curW = k := by
  have hle : c.curW ≤ k := (c.curW_le_iff hk).mpr h.le
  have hge : 2 ^ k ≤ 2 ^ c.curW := h ▸ c.windowSize_le_two_pow_curW
  exact le_antisymm hle ((Nat.pow_le_pow_iff_right (by decide)).mp hge)

/-- The next cell is the cursor plus one, and cell 0 after the last. -/
theorem nextCell_val (i : Fin c.windowSize) :
    (nextCell i).val = if i.val + 1 < c.windowSize then i.val + 1 else 0 := by
  have hi := i.isLt
  split
  case isTrue hlt => exact Nat.mod_eq_of_lt hlt
  case isFalse hge =>
    have hlast : i.val + 1 = c.windowSize := by omega
    simp [nextCell, hlast]

/-- In a window of `2^CURW` cells the next cell is the incremented cursor register. -/
theorem ofNat_nextCell (h : c.windowSize = 2 ^ c.curW) (i : Fin c.windowSize) :
    BitVec.ofNat c.curW (nextCell i).val = BitVec.ofNat c.curW i.val + 1#c.curW := by
  rw [← BitVec.ofNat_add]
  refine BitVec.eq_of_toNat_eq ?_
  rw [BitVec.toNat_ofNat, BitVec.toNat_ofNat, ← h]
  exact Nat.mod_mod _ _

/-- Settles O13: the product is linear in the dropped byte; the cursor by its two cases. -/
theorem cursorUpdateForms : Obligations.CursorUpdateForms := by
  unfold Obligations.CursorUpdateForms
  refine ⟨fun d => ?_, fun s b => ⟨s.eng.rc.roll b, exec_rcRoll s b, nextCell_val _, fun k hk hpow => ?_⟩⟩
  · have hd : d.toNat < 256 := d.isLt
    change 1984 ≤ 64 * (d.toNat + 31) ∧ 64 * (d.toNat + 31) ≤ 18304 ∧ 64 * (d.toNat + 31) = _
    rw [Nat.shiftLeft_eq]
    omega
  · have hcurW := curW_of_windowSize_eq_two_pow hk hpow
    exact ⟨hcurW, ofNat_nextCell (hcurW.symm ▸ hpow) _⟩

/-! ### A window of one byte -/

section ConstantWindow

variable {r : RcUnit c} {b : Byte}

theorem RcUnit.recent_of_constant (hconst : ∀ i, i < c.windowSize → Memory.read r.window i = b) (k : Nat) :
    r.recent k = b :=
  hconst _ (Nat.mod_lt _ c.windowSize_pos)

theorem RcUnit.total_of_constant (hconst : ∀ i, i < c.windowSize → Memory.read r.window i = b) :
    r.total = c.windowSize * b.toNat := by
  rw [RcUnit.total_eq_recent, Finset.sum_congr rfl fun k _ => by rw [RcUnit.recent_of_constant hconst k]]
  rw [Finset.sum_const, Finset.card_range, smul_eq_mul]

/-- The weights 1 to W add up to `W·(W+1)/2`. -/
theorem RcUnit.weightedTotal_of_constant (hconst : ∀ i, i < c.windowSize → Memory.read r.window i = b) :
    r.weightedTotal = b.toNat * (c.windowSize * (c.windowSize + 1) / 2) := by
  have hgauss : ∑ k ∈ Finset.range c.windowSize, (k + 1) = c.windowSize * (c.windowSize + 1) / 2 := by
    have hids := Finset.sum_range_id (c.windowSize + 1)
    rwa [Finset.sum_range_succ', add_zero, Nat.add_sub_cancel, mul_comm] at hids
  rw [RcUnit.weightedTotal, Finset.sum_congr rfl fun k _ => by rw [RcUnit.recent_of_constant hconst k],
    ← Finset.sum_mul, hgauss, mul_comm]

/-- The byte that comes in is the byte that goes out, so no sum and no cell changes (40_rollsum.md
R90): `S2` gains `S1 = W·(C + b)`, and that is what it loses. -/
theorem RcUnit.roll_of_constant (hconst : ∀ i, i < c.windowSize → Memory.read r.window i = b)
    (hsum : r.SumHolds) : (r.roll b).s1 = r.s1 ∧ (r.roll b).s2 = r.s2 ∧
      ∀ i, Memory.read (r.roll b).window i = Memory.read r.window i := by
  have hdrop : r.drop = b := hconst _ r.cursor.isLt
  have hs1 : (r.roll b).s1 = r.s1 := by
    rw [RcUnit.roll_s1_eq, hdrop, BitVec.add_sub_cancel]
  refine ⟨hs1, ?_, fun i => ?_⟩
  · have hsum' : r.s1.toNat = (c.windowSize * (b.toNat + c.charOffset)) % 2 ^ 32 := by
      rw [hsum, RcUnit.total_of_constant hconst, mul_add, add_comm]
    have hs2 := r.roll_s2_toNat b
    simp only [hs1, hdrop, ← Nat.cast_add, ← Nat.cast_mul] at hs2
    have hlt := r.s2.isLt
    refine BitVec.eq_of_toNat_eq ?_
    generalize c.windowSize * (b.toNat + c.charOffset) = gain at *
    omega
  · rw [RcUnit.roll_window, Memory.read_write]
    split
    case isTrue hi => rw [hi, hconst _ r.cursor.isLt]
    case isFalse => rfl

end ConstantWindow

/-- Settles O14: the roll of the window's own byte, and the totals of a constant window. -/
theorem constantWindowSteadyState : Obligations.ConstantWindowSteadyState := by
  unfold Obligations.ConstantWindowSteadyState
  intro s b hconst hsum
  obtain ⟨hs1, hs2, hwindow⟩ := RcUnit.roll_of_constant hconst hsum
  refine ⟨s.eng.rc.roll b, exec_rcRoll s b, hs1, hs2, hwindow, rfl, ?_, fun hweighted => ?_⟩
  · rw [hs1, hsum, RcUnit.total_of_constant hconst, mul_add]
  · rw [hs2, hweighted, RcUnit.weightedTotal_of_constant hconst]

/-! ### The window decides -/

/-- Units that meet the sum invariants and hold the same bytes by age have the same sums. -/
theorem RcUnit.sums_eq_of_recent {r q : RcUnit c} (hr : r.SumHolds) (hq : q.SumHolds)
    (hr' : r.WeightedSumHolds) (hq' : q.WeightedSumHolds)
    (hsame : ∀ k, k < c.windowSize → r.recent k = q.recent k) : r.s1 = q.s1 ∧ r.s2 = q.s2 := by
  have htotal : r.total = q.total := by
    rw [RcUnit.total_eq_recent, RcUnit.total_eq_recent]
    exact Finset.sum_congr rfl fun k hk => by rw [hsame k (Finset.mem_range.mp hk)]
  have hweighted : r.weightedTotal = q.weightedTotal :=
    Finset.sum_congr rfl fun k hk => by rw [hsame k (Finset.mem_range.mp hk)]
  exact ⟨BitVec.eq_of_toNat_eq (by rw [hr, hq, htotal]), BitVec.eq_of_toNat_eq (by rw [hr', hq', hweighted])⟩

/-- SPLIT is a function of `S2`. -/
theorem RcUnit.split_congr {r q : RcUnit c} (h : r.s2 = q.s2) : r.split = q.split := congrArg (splitOf c) h

theorem Engine.Inv.split_eq_of_recent {e f : Engine c} (he : e.Inv) (hf : f.Inv)
    (hsame : ∀ k, k < c.windowSize → e.rc.recent k = f.rc.recent k) : e.rc.split = f.rc.split :=
  RcUnit.split_congr
    (RcUnit.sums_eq_of_recent he.sum hf.sum he.weightedSum hf.weightedSum hsame).2

/-- Settles O38: the same bytes by age give the same totals, hence the same `S2`. -/
theorem splitDependsOnWindowOnly : Obligations.SplitDependsOnWindowOnly := by
  unfold Obligations.SplitDependsOnWindowOnly
  exact fun c e f he hf hsame => he.split_eq_of_recent hf hsame

/-! ### The default configuration -/

/-- The dropped byte is one of the cells of the total, and has the weight W in the weighted total. -/
theorem RcUnit.drop_le_total (r : RcUnit c) : r.drop.toNat ≤ r.total := by
  rw [RcUnit.total_split]
  exact Nat.le_add_left ..

theorem RcUnit.windowSize_mul_drop_le (r : RcUnit c) : c.windowSize * r.drop.toNat ≤ r.weightedTotal := by
  have hpos := c.windowSize_pos
  have hlast : (c.windowSize - 1) ∈ Finset.range c.windowSize := Finset.mem_range.mpr (by omega)
  have hterm := Finset.single_le_sum (f := fun k => (k + 1) * (r.recent k).toNat)
    (fun _ _ => Nat.zero_le _) hlast
  rwa [← RcUnit.drop_eq_recent, Nat.sub_add_cancel hpos] at hterm

/-- By default SPLIT is `S2 ≡ 2^17 - 1` modulo `2^17` (40_rollsum.md R84). -/
theorem RcUnit.split_default_iff_mod (r : RcUnit Config.default) :
    r.split = true ↔ r.s2.toNat % 131072 = 131071 := by
  rw [RcUnit.split_iff_and_blobMask, ← BitVec.toNat_inj, BitVec.toNat_and]
  change r.s2.toNat &&& (2 ^ 17 - 1) = 131071 ↔ _
  rw [Nat.and_two_pow_sub_one_eq_mod]

/-- The ranges of the sums by the bounds of the totals; in that of `S2` five values have 17 ones at
the low end (10_state.md R44). -/
theorem RcUnit.ranges_default {r : RcUnit Config.default} (hsum : r.SumHolds) (hweighted : r.WeightedSumHolds) :
    1984 ≤ r.s1.toNat ∧ r.s1.toNat ≤ 18304 ∧ 124992 ≤ r.s2.toNat ∧ r.s2.toNat ≤ 655392 ∧
      (r.split = true ↔ r.s2.toNat ∈ [131071, 262143, 393215, 524287, 655359]) := by
  have hs1 := RcUnit.s1_default hsum
  have hs2 := RcUnit.s2_default hweighted
  have htotal := r.total_default_le
  have hweightedTotal := r.weightedTotal_default_le
  refine ⟨by omega, by omega, by omega, by omega, ?_⟩
  rw [RcUnit.split_default_iff_mod]
  simp only [List.mem_cons, List.not_mem_nil, or_false]
  omega

/-- Settles O36: a reachable unit meets both sum invariants. -/
theorem defaultReachableRanges : Obligations.DefaultReachableRanges := by
  unfold Obligations.DefaultReachableRanges
  intro s hreach
  obtain ⟨e, ev, vs, hinv, rfl⟩ := hreach.exists_inv
  exact RcUnit.ranges_default hinv.sum hinv.weightedSum

/-- The sums hold what a roll takes off them, and the roll gives the unbounded integers: by the
invariants these are again sums of the totals, far below `2^32` (40_rollsum.md R87). -/
theorem RcUnit.roll_default {r : RcUnit Config.default} (hsum : r.SumHolds) (hweighted : r.WeightedSumHolds)
    (b : Byte) : 1984 + r.drop.toNat ≤ r.s1.toNat ∧ 124992 + 64 * r.drop.toNat ≤ r.s2.toNat ∧
      ((r.roll b).s1.toNat : Int) = r.s1.toNat + b.toNat - r.drop.toNat ∧
      ((r.roll b).s2.toNat : Int) = r.s2.toNat + (r.roll b).s1.toNat - 64 * (r.drop.toNat + 31) := by
  have hs1 := RcUnit.s1_default hsum
  have hs2 := RcUnit.s2_default hweighted
  have hs1' := RcUnit.s1_default (RcUnit.sumHolds_roll hsum b)
  have hs2' := RcUnit.s2_default (RcUnit.weightedSumHolds_roll hsum hweighted b)
  have htotal := r.total_roll b
  have hweightedTotal : (r.roll b).weightedTotal + 64 * r.drop.toNat = r.weightedTotal + (r.roll b).total :=
    r.weightedTotal_roll b
  have hdrop := r.drop_le_total
  have hdrop' : 64 * r.drop.toNat ≤ r.weightedTotal := r.windowSize_mul_drop_le
  omega

/-- Settles O37: the results are unbounded, and the unit after the roll is in the default ranges. -/
theorem defaultRollNeverWraps : Obligations.DefaultRollNeverWraps := by
  unfold Obligations.DefaultRollNeverWraps
  intro s b hreach
  obtain ⟨e, ev, vs, hinv, rfl⟩ := hreach.exists_inv
  obtain ⟨hdrop1, hdrop2, hs1, hs2⟩ := RcUnit.roll_default hinv.sum hinv.weightedSum b
  have hnext := Engine.inv_byte hinv b
  obtain ⟨hmin1, hmax1, hmin2, hmax2, -⟩ := RcUnit.ranges_default hnext.sum hnext.weightedSum
  exact ⟨hdrop1, hdrop2, e.rc.roll b, exec_rcRoll _ b, hs1, hs2, hmin1, hmin2.trans_lt' (by decide),
    hmax1.trans_lt (by decide), hmax2.trans_lt (by decide)⟩

end Sys2Proof.Machine
end

section
/-! PROOF. What each command does to the state, read off its equation (10_state.md R36, 41_chunker.md
R94 to R101, R142), and the ports after it (30_encoding.md R74, R75). -/

namespace Sys2Proof.Machine

variable {c : Config}

/-- Settles O18: the frame of each command from its equation, the reset values from their table. -/
theorem commandFrames : Obligations.CommandFrames := by
  unfold Obligations.CommandFrames
  obtain ⟨-, htable, -⟩ := initResult
  refine ⟨fun s t h => ?_, fun s t b h => ?_, fun s t h => ?_, fun s => ?_⟩
  · exact (Host.Outcome.next.inj ((exec_nop s).symm.trans h)).symm
  · obtain rfl := Host.Outcome.next.inj ((exec_byte s b).symm.trans h)
    refine ⟨fun i hi => Memory.read_write_other hi, Memory.read_write_same, rfl, rfl, ?_⟩
    rw [List.map_append, Option.toList_map]
  · obtain rfl := Host.Outcome.next.inj ((exec_init_eq_takeReset s).symm.trans h)
    obtain ⟨-, -, hwindow, hcursor, hs1, hs2, hlen, hoff, -⟩ := htable s.cfg
    exact ⟨hwindow, hcursor, hs1, hs2, hlen, hoff, rfl, rfl, rfl, rfl⟩
  · obtain ⟨-, -, hwindow, hcursor, hs1, hs2, hlen, hoff, -⟩ := htable s.cfg
    exact ⟨hwindow, hcursor, hs1, hs2, hlen, hoff, rfl, rfl, rfl, rfl⟩

/-- Settles O19: the three kinds of word, with the RC operation of each command. -/
theorem forwardingToRcUnit : Obligations.ForwardingToRcUnit := by
  unfold Obligations.ForwardingToRcUnit
  intro s w
  obtain ⟨hhold, hinit, hroll⟩ := decodeRcw_iff_decodeCw w
  rcases decode_cases w with ⟨hc, hrc⟩ | ⟨b, hc, hrc⟩ | ⟨hc, hrc⟩
  · exact ⟨s.eng.rc, s.eng, none, by rw [hrc, exec_rcHold], by rw [hc, exec_nop]; simp, rfl, hhold, hroll,
      hinit⟩
  · exact ⟨s.eng.rc.roll b, (s.eng.byte b).1, (s.eng.byte b).2, by rw [hrc, exec_rcRoll],
      by rw [hc, exec_byte], rfl, hhold, hroll, hinit⟩
  · exact ⟨s.eng.rc.init, s.eng.init.1, none, by rw [hrc, exec_rcInit], by rw [hc, exec_init]; simp, rfl,
      hhold, hroll, hinit⟩

/-- The gates with the incremented CURLEN as a number that has not wrapped. -/
theorem Engine.closes_iff_of_lt {e : Engine c} (h : e.curLen.toNat + 1 < 2 ^ c.lenW) (b : Byte) :
    e.closes b = true ↔ e.curLen.toNat + 1 = c.maxBlobSize ∨
      ((e.rc.roll b).split = true ∧ c.tooSmallThreshold < e.curLen.toNat + 1) := by
  rw [Engine.closes_iff, Nat.mod_eq_of_lt h]

/-- Settles O20: neither gate is open. -/
theorem candidateInSmallChunkIsLost : Obligations.CandidateInSmallChunkIsLost := by
  unfold Obligations.CandidateInSmallChunkIsLost
  intro s b hsmall hcap
  have hopen : ¬s.eng.closes b = true := by
    rw [Engine.closes_iff_of_lt (hcap.trans (maxBlobSize_lt s.cfg))]
    omega
  refine ⟨s.eng.rc.roll b, exec_rcRoll s b, ?_⟩
  rw [exec_byte, s.eng.byte_of_not_closes b hopen, Option.toList_none, List.append_nil]

theorem Engine.phase_eq_justClosed_iff (e : Engine c) : e.phase = .justClosed ↔ e.curLen.toNat = 0 := by
  unfold Engine.phase
  split <;> simp [*]

theorem Engine.phase_eq_accumulating_iff (e : Engine c) : e.phase = .accumulating ↔ e.curLen.toNat ≠ 0 := by
  unfold Engine.phase
  split <;> simp [*]

theorem Engine.phase_reset : (Engine.reset c).phase = .justClosed := rfl

/-- BYTE leaves CURLEN 0 after an event and counts on without one, under the bound on CURLEN
(41_chunker.md R95, 10_state.md R46). -/
theorem Engine.byte_curLen {e : Engine c} (h : e.LengthHolds) (b : Byte) :
    ((e.byte b).2 ≠ none → (e.byte b).1.curLen.toNat = 0) ∧
      ((e.byte b).2 = none → (e.byte b).1.curLen.toNat = e.curLen.toNat + 1 ∧
        e.curLen.toNat + 1 < c.maxBlobSize) := by
  by_cases hcut : e.closes b = true
  · rw [e.byte_of_closes b hcut]
    exact ⟨fun _ => rfl, fun hnone => by cases hnone⟩
  · refine ⟨fun hsome => absurd ?_ hsome, fun _ => Engine.byte_curLen_of_not_closes h hcut⟩
    rw [e.byte_of_not_closes b hcut]

/-- By default the first byte of a chunk closes nothing: a length of 1 is below both gates. -/
theorem Engine.byte_event_of_justClosed_default {e : Engine Config.default} (h : e.phase = .justClosed)
    (b : Byte) : (e.byte b).2 = none := by
  have hzero := e.phase_eq_justClosed_iff.mp h
  have hopen : ¬e.closes b = true := by
    rw [Engine.closes_iff_of_lt (by rw [hzero]; decide), hzero]
    simp [Config.default]
  rw [e.byte_of_not_closes b hopen]

/-- Settles O21: the phase by CURLEN after the command. -/
theorem phaseTransitions : Obligations.PhaseTransitions := by
  unfold Obligations.PhaseTransitions
  refine ⟨fun s b hlen => ?_, fun s => ⟨_, exec_init_eq_takeReset s, Engine.phase_reset⟩,
    fun s => Engine.phase_reset, fun s => ⟨_, exec_nop s, rfl⟩⟩
  obtain ⟨hcut, hopen⟩ := Engine.byte_curLen hlen b
  refine ⟨_, exec_byte s b, fun hnone => ?_, fun hsome => ?_, fun hone hnone => ?_, fun hdefault hclosed => ?_⟩
  · exact (Engine.phase_eq_accumulating_iff _).mpr ((hopen hnone).1.trans_ne (Nat.succ_ne_zero _))
  · exact (Engine.phase_eq_justClosed_iff _).mpr (hcut hsome)
  · have hlt := (hopen hnone).2
    omega
  · obtain ⟨cfg, eng, ev, vs, ps⟩ := s
    subst hdefault
    exact Engine.byte_event_of_justClosed_default hclosed b

/-- Settles O32: the bound by the response of the engine, the counts by the equations of the commands. -/
theorem chunkLengthBoundKept : Obligations.ChunkLengthBoundKept := by
  unfold Obligations.ChunkLengthBoundKept
  refine ⟨fun s t hlen hstep => ?_, fun s t b hlen h => ?_, fun s t h => ?_, fun s t h => ?_, fun s => rfl⟩
  · refine step_keeps (P := Engine.LengthHolds) (fun e p he => ?_) hlen hstep
    exact Engine.respond_keeps Engine.lengthHolds_reset (Engine.lengthHolds_byte he) he p
  · obtain rfl := Host.Outcome.next.inj ((exec_byte s b).symm.trans h)
    obtain ⟨hcut, hopen⟩ := Engine.byte_curLen hlen b
    exact ⟨hcut, fun hnone => (hopen hnone).1⟩
  · obtain rfl := Host.Outcome.next.inj ((exec_nop s).symm.trans h)
    rfl
  · obtain rfl := Host.Outcome.next.inj ((exec_init_eq_takeReset s).symm.trans h)
    rfl

/-- Settles O48: the ports are the registers and the event of the command's equation. -/
theorem portsShowLastStep : Obligations.PortsShowLastStep := by
  unfold Obligations.PortsShowLastStep
  refine ⟨fun s b => ?_, fun s => ⟨_, exec_nop s, rfl, rfl, rfl, rfl, rfl, rfl, rfl⟩, fun s t h => ?_⟩
  · have hsplit := (s.eng.rc.roll b).split_iff_and_blobMask
    have hcloses := s.eng.closes_iff b
    rw [hsplit] at hcloses
    refine ⟨s.eng.rc.roll b, _, exec_rcRoll s b, exec_byte s b, rfl, rfl, hsplit, ?_,
      (s.eng.byte_isSome_iff b).trans hcloses, fun hcut => ?_, fun hopen => ?_⟩
    · simp [State.outputs, BitVec.toNat_add]
    · simp [State.outputs, s.eng.byte_of_closes b (hcloses.mpr hcut)]
    · simp [State.outputs, s.eng.byte_of_not_closes b (mt hcloses.mp hopen)]
  · obtain rfl : t = s.takeReset := h.elim
      (fun h => Host.Outcome.next.inj (h.symm.trans (exec_init_eq_takeReset s))) id
    obtain ⟨-, htable, -⟩ := initResult
    obtain ⟨-, -, -, -, hs1, hs2, hlen, hoff, hsplit⟩ := htable s.cfg
    exact ⟨rfl, rfl, hs1, hs2, hsplit, hlen, hoff⟩

end Sys2Proof.Machine
end

section
/-! PROOF. The step and the host's machine: which command a step runs, reset, idling, and that no step
reads an event (60_exceptions.md R128 to R130, 10_state.md R34). -/

namespace Sys2Proof.Machine

variable {c : Config}

/-- Settles O22: the three ways to present a word put it at the head of the pending inputs. -/
theorem stepRunsDecodedCommand : Obligations.StepRunsDecodedCommand := by
  unfold Obligations.StepRunsDecodedCommand
  refine ⟨fun s w rest h => ?_, fun s n w i h => ?_, fun s i hcw => ?_⟩
  · obtain ⟨cfg, eng, ev, vs, pending⟩ := s
    subst h
    rfl
  · unfold decodeTableWord decodeWord at h
    split_ifs at h with hw
    rw [State.withFetchWord, if_pos hw, step_present_command]
    exact congrArg (exec · s) (Option.some.inj h)
  · have hround := decodeOn_encode i
    rw [of_decide_eq_true hcw] at hround
    exact (step_present_command s (encode i)).trans (congrArg (exec · s) hround)

/-- Settles O23: the word beside `rst` is not read. -/
theorem resetOverridesCommand : Obligations.ResetOverridesCommand := by
  unfold Obligations.ResetOverridesCommand
  intro s w rest h
  obtain ⟨cfg, eng, ev, vs, pending⟩ := s
  subst h
  rfl

theorem core_run_zero (s : State) : Host.Core.run Sys2Proof.core 0 s = .next s := rfl

theorem core_run_succ_of_step {s t : State} (h : step s = .next t) (n : Nat) :
    Host.Core.run Sys2Proof.core (n + 1) s = Host.Core.run Sys2Proof.core n t := by
  rw [core_run_succ, h]

/-- With nothing pending a step is a NOP (60_exceptions.md R128). -/
theorem step_of_pending_nil {s : State} (h : s.pending = []) : step s = .next s.withoutEvent := by
  have hidle : s.portInput = PortInput.command (encode .nop) := by rw [State.portInput, h]; rfl
  rw [step_eq_respond, hidle, Engine.respond_nop decodeCw_encode_nop]
  simp [State.withoutEvent, h]

/-- Settles O24: the first step clears the event port, the others change nothing. -/
theorem idleHoldsState : Obligations.IdleHoldsState := by
  unfold Obligations.IdleHoldsState
  intro s n h
  rw [core_run_succ_of_step (step_of_pending_nil h)]
  induction n with
  | zero => exact core_run_zero _
  | succ n ih =>
    have hidle : step s.withoutEvent = .next s.withoutEvent := step_of_pending_nil h
    rw [core_run_succ_of_step hidle, ih]

/-- The event of a response, if there is one, carries GOFF from before the step (41_chunker.md R100). -/
theorem Engine.respond_event (e : Engine c) (p : PortInput) :
    (e.respond p).2 = none ∨ (e.respond p).2 = some e.gOff := by
  rcases respond_cases c p with ⟨h, -⟩ | ⟨h, -⟩ | ⟨b, h, -⟩ <;> rw [h]
  · exact .inl rfl
  · exact .inl rfl
  · rcases e.byte_cases b with ⟨-, hbyte⟩ | ⟨-, hbyte⟩ <;> rw [hbyte]
    · exact .inr rfl
    · exact .inl rfl

/-- Settles O25: a step is the engine's response; the operations by their equations. -/
theorem everyStepCompletes : Obligations.EveryStepCompletes := by
  unfold Obligations.EveryStepCompletes
  refine ⟨fun s => ⟨_, step_eq_respond s, rfl, ?_, ?_⟩, fun i s => ?_⟩
  · rw [List.map_append, Option.toList_map]
  · exact (s.eng.respond_event s.portInput).imp (congrArg _) (congrArg _)
  · cases i with
    | nop => exact ⟨_, exec_nop s, rfl⟩
    | byte b => exact ⟨_, exec_byte s b, rfl⟩
    | init => exact ⟨_, exec_init s, rfl⟩
    | rcHold => exact ⟨_, exec_rcHold s, rfl⟩
    | rcRoll b => exact ⟨_, exec_rcRoll s b, rfl⟩
    | rcInit => exact ⟨_, exec_rcInit s, rfl⟩

/-- Settles O26: a step with an input at the head of the pending ones is the step of the run. -/
theorem runIsStepsOfCore : Obligations.RunIsStepsOfCore := by
  unfold Obligations.RunIsStepsOfCore
  intro ps s
  induction ps generalizing s with
  | nil => exact core_run_zero s
  | cons p ps ih =>
    have hstep := step_eq_respond { s with pending := p :: (ps ++ s.pending) }
    rw [run_cons p ps s _ (step_present s p), ← ih]
    exact core_run_succ_of_step hstep ps.length

/-- Settles O27: the response is a function of the engine and of the input alone. -/
theorem engineReadsNoPastEvent : Obligations.EngineReadsNoPastEvent := by
  unfold Obligations.EngineReadsNoPastEvent
  exact fun s ev old => ⟨_, _, step_eq_respond s, step_eq_respond { s with bnd := ev, observed := old }⟩

end Sys2Proof.Machine
end

section
/-! PROOF. The window as the memory of what was fed since the last INIT or reset (10_state.md R41), with
CURSOR and GOFF as its length (R27, R31). -/

namespace Sys2Proof.Machine

variable {c : Config}

theorem RcUnit.remembers_reset : (RcUnit.reset c).Remembers [] := fun _ _ => rfl

/-- The new byte is of age 0, and every byte that stays is one older. -/
theorem RcUnit.remembers_roll {r : RcUnit c} {h : List Byte} (hr : r.Remembers h) (b : Byte) :
    (r.roll b).Remembers (b :: h) := by
  intro k hk
  cases k with
  | zero => rw [RcUnit.recent_roll_zero, List.getD_cons_zero]
  | succ k => rw [RcUnit.recent_roll_succ r b hk, List.getD_cons_succ, hr k (by omega)]

/-- What an engine fed `h` since its last INIT or reset, newest first, holds of it. -/
structure Engine.Recalls (e : Engine c) (h : List Byte) : Prop where
  window : e.rc.Remembers h
  cursor : e.rc.cursor.val = h.length % c.windowSize
  offset : e.gOff.toNat = h.length % 2 ^ c.offW

theorem Engine.remembers_respond {e : Engine c} {h : List Byte} (he : e.rc.Remembers h) (p : PortInput) :
    (e.respond p).1.rc.Remembers (fed h p) := by
  rcases respond_cases c p with ⟨hp, hfed⟩ | ⟨hp, hfed⟩ | ⟨b, hp, hfed⟩ <;> rw [hp, hfed]
  · exact RcUnit.remembers_reset
  · exact he
  · exact RcUnit.remembers_roll he b

theorem Engine.recalls_reset : (Engine.reset c).Recalls [] where
  window := RcUnit.remembers_reset
  cursor := (Nat.zero_mod _).symm
  offset := BitVec.toNat_ofNat ..

theorem Engine.recalls_respond {e : Engine c} {h : List Byte} (he : e.Recalls h) (p : PortInput) :
    (e.respond p).1.Recalls (fed h p) := by
  rcases respond_cases c p with ⟨hp, hfed⟩ | ⟨hp, hfed⟩ | ⟨b, hp, hfed⟩ <;> rw [hp, hfed]
  · exact Engine.recalls_reset
  · exact he
  · exact {
      window := RcUnit.remembers_roll he.window b
      cursor := by simp [nextCell, he.cursor]
      offset := by simp [BitVec.toNat_add, he.offset] }

theorem Engine.recalls_after {e : Engine c} {h : List Byte} (he : e.Recalls h) (ps : List PortInput) :
    (e.after ps).Recalls (ps.foldl fed h) := by
  induction ps generalizing e h with
  | nil => exact he
  | cons p ps ih => exact ih (Engine.recalls_respond he p)

/-- Settles O33: reset forgets, NOP holds, a roll adds its byte. -/
theorem windowRemembersEachStep : Obligations.WindowRemembersEachStep := by
  unfold Obligations.WindowRemembersEachStep
  intro s t h hs hstep
  rw [eq_of_step hstep]
  exact Engine.remembers_respond hs s.portInput

/-- Settles O34: a run from reset recalls its history; the byte dropped is the oldest of the window. -/
theorem runFromResetIsHistory : Obligations.RunFromResetIsHistory := by
  unfold Obligations.RunFromResetIsHistory
  intro c ps
  have hrecalls := Engine.recalls_after (Engine.recalls_reset (c := c)) ps
  refine ⟨_, run_eq ps _, rfl, hrecalls.window, hrecalls.cursor, hrecalls.offset, ?_⟩
  rw [RcUnit.drop_eq_recent]
  exact hrecalls.window _ (Nat.sub_one_lt c.windowSize_pos.ne')

/-- The port inputs that feed the bytes of a stream. -/
def bytePorts (bs : List Byte) : List PortInput := (byteWords bs).map PortInput.command

@[simp] theorem bytePorts_nil : bytePorts [] = [] := rfl
@[simp] theorem bytePorts_cons (b : Byte) (bs : List Byte) :
    bytePorts (b :: bs) = PortInput.command (encode (.byte b)) :: bytePorts bs := rfl
@[simp] theorem bytePorts_append (as bs : List Byte) : bytePorts (as ++ bs) = bytePorts as ++ bytePorts bs := by
  simp [bytePorts, byteWords]

@[simp] theorem fed_command_byte (h : List Byte) (b : Byte) :
    fed h (.command (encode (.byte b))) = b :: h := by
  have hdecode : decodeRcw (encode (.byte b)) = .rcRoll b := decodeRcw_encode_rcRoll b
  simp [fed, hdecode]

/-- The history of a stream of bytes is the stream, newest first. -/
theorem history_bytePorts (bs : List Byte) : history (bytePorts bs) = bs.reverse := by
  have hgeneral : ∀ h, (bytePorts bs).foldl fed h = bs.reverse ++ h := by
    induction bs with
    | nil => exact fun h => rfl
    | cons b bs ih => intro h; simp [ih]
  exact (hgeneral []).trans (List.append_nil _)

/-- Settles O35: the history of the stream, counted from its other end. -/
theorem nthRollAddressesCell : Obligations.NthRollAddressesCell := by
  unfold Obligations.NthRollAddressesCell
  intro c bs
  obtain ⟨t, hrun, hcfg, -, hcursor, -, hdrop⟩ := runFromResetIsHistory c (bytePorts bs)
  rw [history_bytePorts] at hcursor hdrop
  rw [List.length_reverse] at hcursor
  refine ⟨t, hrun, hcfg, hcursor, hdrop.trans ?_⟩
  have hpos := c.windowSize_pos
  split
  case isTrue hshort => exact List.getD_eq_default _ _ (by rw [List.length_reverse]; omega)
  case isFalse hlong =>
    rw [List.getD_eq_getElem?_getD, List.getElem?_reverse (by omega), List.getD_eq_getElem?_getD]
    congr 2
    omega

end Sys2Proof.Machine
end

section
/-! PROOF. The elaboration of a configuration (00_scope.md R18) and single words and lines of the
assembler (30_encoding.md R69, R78). -/

namespace Sys2Proof.Machine

/-- Settles O1: eleven words and one wider number, decoded. -/
theorem sampleWordsDecode : Obligations.SampleWordsDecode := by
  unfold Obligations.SampleWordsDecode
  decide

/-- Settles O4: the ranges are those of `Params.Legal`, on which the elaboration branches. -/
theorem illegalConfigurationsRefused : Obligations.IllegalConfigurationsRefused := by
  unfold Obligations.IllegalConfigurationsRefused
  refine fun p => ⟨fun ⟨hw, hw', hoffset, hbits, hmax, hmax', hsmall, hoff⟩ => ?_, fun hnot => ?_⟩
  · have hlegal : p.Legal := ⟨⟨hw, hw'⟩, hoffset, hbits, ⟨hmax, hmax'⟩, hsmall, hoff⟩
    exact ⟨⟨p, hlegal⟩, dif_pos hlegal, rfl⟩
  · exact dif_neg fun ⟨⟨hw, hw'⟩, hoffset, hbits, ⟨hmax, hmax'⟩, hsmall, hoff⟩ =>
      hnot ⟨hw, hw', hoffset, hbits, hmax, hmax', hsmall, hoff⟩

/-- Settles O6: an operand up to 255 is well formed and encodes to its word, a greater one is refused. -/
theorem assemblerNotation : Obligations.AssemblerNotation := by
  unfold Obligations.AssemblerNotation
  refine ⟨rfl, rfl, fun n hn => ?_, fun n hn => ?_, by decide⟩
  · have hwf : (AsmLine.byte n).wellFormed = true := decide_eq_true hn
    rw [assembleLine_of_wellFormed hwf, expandLine, List.map_singleton, encode_byte_ofNat hn]
  · have hbad : ¬(AsmLine.byte n).wellFormed = true := by simp [AsmLine.wellFormed, inByteRange, hn]
    exact if_neg hbad

end Sys2Proof.Machine
end

section
/-! PROOF. Streams: a run of commands without INIT is a run of its bytes (41_chunker.md R96, R102), and
after INIT a stream depends on its own commands alone (R108). -/

namespace Sys2Proof.Machine

variable {c : Config}

theorem Engine.after_append (ps qs : List PortInput) (e : Engine c) :
    e.after (ps ++ qs) = (e.after ps).after qs := List.foldl_append ..

theorem Engine.events_append (ps qs : List PortInput) (e : Engine c) :
    e.events (ps ++ qs) = e.events ps ++ (e.after ps).events qs := by
  induction ps generalizing e with
  | nil => rfl
  | cons p ps ih => simp [ih]

@[simp] theorem Engine.respond_command_byte (b : Byte) (e : Engine c) :
    e.respond (.command (encode (.byte b))) = e.byte b :=
  Engine.respond_byte (decodeCw_encode_byte b) e

/-- The engine and its events see of a stream's commands only the bytes. -/
theorem Engine.after_events_stream {ws : List CmdWord} (h : ws.all isStreamWord = true) (e : Engine c) :
    e.after (ws.map .command) = e.after (bytePorts (streamBytes ws)) ∧
      e.events (ws.map .command) = e.events (bytePorts (streamBytes ws)) := by
  induction ws generalizing e with
  | nil => exact ⟨rfl, rfl⟩
  | cons w ws ih =>
    rw [List.all_cons, Bool.and_eq_true] at h
    obtain ⟨hw, hws⟩ := h
    rcases decode_cases w with ⟨hd, -⟩ | ⟨b, hd, -⟩ | ⟨hd, -⟩
    · have hbyte : streamBytes (w :: ws) = streamBytes ws := by simp [streamBytes, wordByte, hd]
      simpa [hbyte, Engine.respond_nop hd] using ih hws e
    · have hbyte : streamBytes (w :: ws) = b :: streamBytes ws := by simp [streamBytes, wordByte, hd]
      simpa [hbyte, Engine.respond_byte hd] using ih hws (e.byte b).1
    · simp [isStreamWord, hd] at hw

theorem runWords_stream {ws : List CmdWord} (h : ws.all isStreamWord = true) (s : State) :
    runWords ws s = .next { s with
      eng := s.eng.after (bytePorts (streamBytes ws))
      bnd := s.eng.lastEvent s.bnd (ws.map .command)
      observed := s.observed ++ s.eng.events (bytePorts (streamBytes ws)) } := by
  obtain ⟨hafter, hevents⟩ := Engine.after_events_stream h s.eng
  rw [runWords, run_eq, hafter, hevents]

/-- Settles O44: INIT takes the reset state, and a run from there is that of a fresh engine with its
events after those already recorded. -/
theorem initIsolatesStreams : Obligations.InitIsolatesStreams := by
  unfold Obligations.InitIsolatesStreams
  intro s ws
  refine ⟨_, _, _, run_eq (ws.map .command) (State.resetOf s.cfg), ?_⟩
  rw [runWords_cons 0x300#10 ws s _ (exec_init_eq_takeReset s)]
  exact run_eq (ws.map .command) s.takeReset

end Sys2Proof.Machine
end

section
/-! PROOF. The boundaries of one stream: their order, the chunk lengths between them, and the tail that
CURLEN counts (41_chunker.md R102 to R104). -/

namespace Sys2Proof.Machine

variable {c : Config}

theorem chunkLengths_concat (u : Int) (vs : List Nat) (v : Nat) :
    chunkLengths u (vs ++ [v]) = chunkLengths u vs ++ [(v : Int) - (vs.map Int.ofNat).getLastD u] := by
  induction vs generalizing u with
  | nil => rfl
  | cons v' vs ih =>
    simp only [List.cons_append, chunkLengths, ih, List.map_cons, List.getLastD_cons]
    rfl

theorem lastBoundary_concat (vs : List Nat) (v : Nat) : lastBoundary (vs ++ [v]) = v := by
  rw [lastBoundary, List.map_append]
  exact List.getLastD_concat ..

/-- BYTE by the length of the chunk with it, which has not wrapped: an event at a length that a gate
lets pass, or the length as the next CURLEN. -/
theorem Engine.byte_cases_of_lengthHolds {e : Engine c} (h : e.LengthHolds) (b : Byte) :
    ((e.byte b).2 = some e.gOff ∧ (e.byte b).1.curLen.toNat = 0 ∧ e.curLen.toNat + 1 ≤ c.maxBlobSize ∧
      (e.curLen.toNat + 1 = c.maxBlobSize ∨ c.tooSmallThreshold < e.curLen.toNat + 1)) ∨
    ((e.byte b).2 = none ∧ (e.byte b).1.curLen.toNat = e.curLen.toNat + 1) := by
  by_cases hcut : e.closes b = true
  · have hle : e.curLen.toNat + 1 ≤ c.maxBlobSize := by
      have := c.maxBlobSize_pos
      unfold Engine.LengthHolds at h
      omega
    have hgate := (Engine.closes_iff_of_lt (hle.trans_lt (maxBlobSize_lt c)) b).mp hcut
    rw [e.byte_of_closes b hcut]
    exact .inl ⟨rfl, rfl, hle, hgate.imp_right And.right⟩
  · refine .inr ⟨?_, (Engine.byte_curLen_of_not_closes h hcut).1⟩
    rw [e.byte_of_not_closes b hcut]

/-- What the boundaries `vs` of a stream of `n` bytes, and the length `len` of its open chunk, satisfy
(41_chunker.md R102 to R104). -/
structure StreamRecord (c : Config) (n len : Nat) (vs : List Nat) : Prop where
  increasing : vs.Pairwise (· < ·)
  below : ∀ v ∈ vs, v < n
  lengths : ∀ d ∈ chunkLengths (-1) vs, d ≤ c.maxBlobSize ∧
    (d = c.maxBlobSize ∨ (c.tooSmallThreshold : Int) < d)
  tail : (len : Int) = n - 1 - lastBoundary vs

theorem StreamRecord.empty : StreamRecord c 0 0 [] where
  increasing := .nil
  below := by simp
  lengths := by simp [chunkLengths]
  tail := rfl

theorem StreamRecord.count {n len : Nat} {vs : List Nat} (h : StreamRecord c n len vs) :
    StreamRecord c (n + 1) (len + 1) vs where
  increasing := h.increasing
  below := fun v hv => (h.below v hv).trans n.lt_succ_self
  lengths := h.lengths
  tail := by
    have htail := h.tail
    push_cast
    omega

/-- A byte that closes the chunk adds its own offset, which is `len + 1` beyond the last boundary. -/
theorem StreamRecord.cut {n len : Nat} {vs : List Nat} (h : StreamRecord c n len vs)
    (hle : len + 1 ≤ c.maxBlobSize) (hgate : len + 1 = c.maxBlobSize ∨ c.tooSmallThreshold < len + 1) :
    StreamRecord c (n + 1) 0 (vs ++ [n]) where
  increasing := List.pairwise_append.mpr ⟨h.increasing, List.pairwise_singleton .., by simpa using h.below⟩
  below := by
    intro v hv
    rcases List.mem_append.mp hv with hv | hv
    · exact (h.below v hv).trans n.lt_succ_self
    · exact (List.mem_singleton.mp hv).trans_lt n.lt_succ_self
  lengths := by
    rw [chunkLengths_concat]
    intro d hd
    rcases List.mem_append.mp hd with hd | hd
    · exact h.lengths d hd
    · have hlen : d = ((len + 1 : Nat) : Int) := by
        have htail := h.tail
        rw [List.mem_singleton.mp hd]
        unfold lastBoundary at htail
        omega
      rw [hlen]
      omega
  tail := by
    rw [lastBoundary_concat]
    push_cast
    omega

/-- GOFF counts the bytes of a stream modulo `2^OFFW` (10_state.md R31). -/
theorem Engine.gOff_after_bytes (bs : List Byte) :
    ((Engine.reset c).after (bytePorts bs)).gOff.toNat = bs.length % 2 ^ c.offW := by
  have hrecalls := Engine.recalls_after (Engine.recalls_reset (c := c)) (bytePorts bs)
  have hlength : ((bytePorts bs).foldl fed []).length = bs.length :=
    (congrArg List.length (history_bytePorts bs)).trans List.length_reverse
  rw [hrecalls.offset, hlength]

/-- Byte by byte: each either lengthens the open chunk or closes it, at its own offset as long as GOFF
has not wrapped. -/
theorem streamRecord_of_bytes (bs : List Byte) (h : bs.length ≤ 2 ^ c.offW) :
    StreamRecord c bs.length ((Engine.reset c).after (bytePorts bs)).curLen.toNat
      (((Engine.reset c).events (bytePorts bs)).map BitVec.toNat) := by
  induction bs using List.reverseRecOn with
  | nil => exact StreamRecord.empty
  | append_singleton bs b ih =>
    rw [List.length_append, List.length_singleton] at h
    have ih := ih (by omega)
    have hoffset : ((Engine.reset c).after (bytePorts bs)).gOff.toNat = bs.length := by
      rw [Engine.gOff_after_bytes, Nat.mod_eq_of_lt (by omega)]
    have hlen := (Engine.inv_after_reset (c := c) (bytePorts bs)).length
    rw [bytePorts_append, Engine.after_append, Engine.events_append, List.map_append, List.length_append]
    rcases Engine.byte_cases_of_lengthHolds hlen b with ⟨hevent, hzero, hle, hgate⟩ | ⟨hevent, hnext⟩
    · simpa [hevent, hzero, hoffset] using ih.cut hle hgate
    · simpa [hevent, hnext] using ih.count

/-- A run of a stream from the reset state records boundaries that satisfy the stream's rules. -/
theorem runWords_streamRecord (s : State) (ws : List CmdWord) (hreset : s.eng = Engine.reset s.cfg)
    (hstream : ws.all isStreamWord = true) (hlength : (streamBytes ws).length ≤ 2 ^ s.cfg.offW) :
    ∃ (t : State) (vs : List Nat), runWords ws s = .next t ∧
      t.observed.map BitVec.toNat = s.observed.map BitVec.toNat ++ vs ∧
      StreamRecord s.cfg (streamBytes ws).length t.eng.curLen.toNat vs := by
  refine ⟨_, _, runWords_stream hstream s, List.map_append, ?_⟩
  rw [hreset]
  exact streamRecord_of_bytes (streamBytes ws) hlength

/-- Settles O39: the order and the bound of the record of the stream. -/
theorem streamBoundariesIncrease : Obligations.StreamBoundariesIncrease := by
  unfold Obligations.StreamBoundariesIncrease
  intro s ws hreset hstream hlength
  obtain ⟨t, vs, hrun, hobserved, hrecord⟩ := runWords_streamRecord s ws hreset hstream hlength
  exact ⟨t, vs, hrun, hobserved, hrecord.increasing, hrecord.below⟩

/-- Settles O40: the chunk lengths and the tail of the record of the stream. -/
theorem streamChunkLengths : Obligations.StreamChunkLengths := by
  unfold Obligations.StreamChunkLengths
  intro s ws hreset hstream hlength
  obtain ⟨t, vs, hrun, hobserved, hrecord⟩ := runWords_streamRecord s ws hreset hstream hlength
  exact ⟨t, vs, hrun, hobserved, hrecord.lengths, hrecord.tail⟩

end Sys2Proof.Machine
end

section
/-! PROOF. A stream of zeros: the reset window is one of W zero bytes, so the sums stand still and only
the cap closes chunks (41_chunker.md R107, 40_rollsum.md R90). -/

namespace Sys2Proof.Machine

variable {c : Config}

/-- The port inputs of `n` zero bytes. -/
def zeroPorts (n : Nat) : List PortInput := bytePorts (List.replicate n 0x00#8)

theorem zeroPorts_succ (n : Nat) :
    zeroPorts (n + 1) = zeroPorts n ++ [PortInput.command (encode (.byte 0x00#8))] := by
  rw [zeroPorts, List.replicate_succ', bytePorts_append]
  rfl

theorem Engine.after_zeroPorts_succ (n : Nat) (e : Engine c) :
    e.after (zeroPorts (n + 1)) = ((e.after (zeroPorts n)).byte 0x00#8).1 := by
  simp [zeroPorts_succ, Engine.after_append]

theorem Engine.events_zeroPorts_succ (n : Nat) (e : Engine c) : e.events (zeroPorts (n + 1)) =
    e.events (zeroPorts n) ++ ((e.after (zeroPorts n)).byte 0x00#8).2.toList := by
  simp [zeroPorts_succ, Engine.events_append]

/-- Zeros leave the sums and the cells of the reset state as they are. -/
theorem Engine.rc_after_zeroPorts (n : Nat) :
    ((Engine.reset c).after (zeroPorts n)).rc.s1 = (Engine.reset c).rc.s1 ∧
      ((Engine.reset c).after (zeroPorts n)).rc.s2 = (Engine.reset c).rc.s2 ∧
      ∀ i, Memory.read ((Engine.reset c).after (zeroPorts n)).rc.window i = 0x00#8 := by
  induction n with
  | zero => exact ⟨rfl, rfl, fun _ => rfl⟩
  | succ n ih =>
    obtain ⟨hs1, hs2, hwindow⟩ := ih
    obtain ⟨hs1', hs2', hwindow'⟩ := RcUnit.roll_of_constant (fun i _ => hwindow i)
      (Engine.inv_after_reset (c := c) (zeroPorts n)).sum
    rw [Engine.after_zeroPorts_succ]
    exact ⟨hs1'.trans hs1, hs2'.trans hs2, fun i => (hwindow' i).trans (hwindow i)⟩

theorem Engine.split_after_zeroPorts (n : Nat) :
    ((Engine.reset c).after (zeroPorts n)).rc.split = (Engine.reset c).rc.split :=
  RcUnit.split_congr (Engine.rc_after_zeroPorts n).2.1

/-- Without a candidate only the cap closes a chunk. -/
theorem Engine.closes_zero_iff (hsplit : (Engine.reset c).rc.split = false) (n : Nat) :
    ((Engine.reset c).after (zeroPorts n)).closes 0x00#8 = true ↔
      ((Engine.reset c).after (zeroPorts n)).curLen.toNat + 1 = c.maxBlobSize := by
  have hlen := (Engine.inv_after_reset (c := c) (zeroPorts n)).length
  have hlt : ((Engine.reset c).after (zeroPorts n)).curLen.toNat + 1 < 2 ^ c.lenW := by
    have hpos := c.maxBlobSize_pos
    have hcap := maxBlobSize_lt c
    unfold Engine.LengthHolds at hlen
    omega
  have hnext : (((Engine.reset c).after (zeroPorts n)).rc.roll 0x00#8).split = false := by
    rw [← Engine.byte_rc, ← Engine.after_zeroPorts_succ, Engine.split_after_zeroPorts, hsplit]
  rw [Engine.closes_iff_of_lt hlt, hnext]
  simp

/-- Counting on past the end of a chunk of `m`. -/
theorem succ_div_mod_of_full {n m : Nat} (hpos : 0 < m) (h : n % m + 1 = m) :
    (n + 1) / m = n / m + 1 ∧ (n + 1) % m = 0 ∧ (n / m + 1) * m = n + 1 := by
  have hend : (n / m + 1) * m = n + 1 := by
    have hdecomposed := Nat.div_add_mod n m
    rw [add_mul, one_mul, mul_comm]
    omega
  obtain ⟨hdiv, hmod⟩ := (Nat.div_mod_unique hpos (a := n + 1) (c := 0) (d := n / m + 1)).mpr
    ⟨by rw [zero_add, mul_comm, hend], hpos⟩
  exact ⟨hdiv, hmod, hend⟩

/-- Counting on within a chunk of `m`. -/
theorem succ_div_mod_of_not_full {n m : Nat} (hpos : 0 < m) (h : n % m + 1 ≠ m) :
    (n + 1) / m = n / m ∧ (n + 1) % m = n % m + 1 := by
  have hdecomposed := Nat.div_add_mod n m
  have hlt := Nat.mod_lt n hpos
  exact (Nat.div_mod_unique hpos).mpr ⟨by omega, by omega⟩

/-- The cap closes the chunks of zeros at every multiple of MaxBlobSize. -/
theorem Engine.chunks_of_zeros (hsplit : (Engine.reset c).rc.split = false) (n : Nat) (hn : n ≤ 2 ^ c.offW) :
    ((Engine.reset c).after (zeroPorts n)).curLen.toNat = n % c.maxBlobSize ∧
      ((Engine.reset c).events (zeroPorts n)).map BitVec.toNat =
        (List.range (n / c.maxBlobSize)).map (fun k => (k + 1) * c.maxBlobSize - 1) := by
  have hpos := c.maxBlobSize_pos
  induction n with
  | zero => simp [zeroPorts, Engine.reset]
  | succ n ih =>
    obtain ⟨hlen, hevents⟩ := ih (by omega)
    have hcloses := Engine.closes_zero_iff hsplit n
    rw [hlen] at hcloses
    rw [Engine.after_zeroPorts_succ, Engine.events_zeroPorts_succ, List.map_append, hevents]
    by_cases hfull : n % c.maxBlobSize + 1 = c.maxBlobSize
    · obtain ⟨hdiv, hmod, hend⟩ := succ_div_mod_of_full hpos hfull
      have hoffset : ((Engine.reset c).after (zeroPorts n)).gOff.toNat = n := by
        rw [zeroPorts, Engine.gOff_after_bytes, List.length_replicate, Nat.mod_eq_of_lt (by omega)]
      rw [Engine.byte_of_closes _ _ (hcloses.mpr hfull), hdiv, hmod, List.range_succ, List.map_append]
      simp [hoffset, hend]
    · obtain ⟨hdiv, hmod⟩ := succ_div_mod_of_not_full hpos hfull
      have hopen := mt hcloses.mp hfull
      obtain ⟨hcount, -⟩ := Engine.byte_curLen_of_not_closes
        (Engine.inv_after_reset (c := c) (zeroPorts n)).length hopen
      rw [hcount, hlen, Engine.byte_of_not_closes _ _ hopen, hdiv, hmod]
      simp

/-- Settles O43: the sums of the zeros, their chunks, and the default reset state computed. -/
theorem allZeroStreamBoundaries : Obligations.AllZeroStreamBoundaries := by
  unfold Obligations.AllZeroStreamBoundaries
  refine ⟨fun s n hreset hsplit hn => ?_, by decide⟩
  obtain ⟨cfg, eng, ev, vs, pending⟩ := s
  obtain rfl : eng = Engine.reset cfg := hreset
  obtain ⟨hs1, hs2, -⟩ := Engine.rc_after_zeroPorts (c := cfg) n
  obtain ⟨hlen, hevents⟩ := Engine.chunks_of_zeros hsplit n hn
  refine ⟨_, run_eq (zeroPorts n) _, ?_, hs1, hs2, (Engine.split_after_zeroPorts n).trans hsplit, hlen⟩
  rw [List.map_append, hevents]

end Sys2Proof.Machine
end

section
/-! PROOF. Two engines under the same inputs: which parts of the state the decisions depend on
(41_chunker.md R109, R110, 70_reset_and_hazards.md R141). -/

namespace Sys2Proof.Machine

variable {c : Config}

/-- A relation that every response keeps, with the same event, gives the same events for any inputs. -/
theorem Engine.events_eq_of_kept {R : Engine c → Engine c → Prop}
    (hkeep : ∀ e f p, R e f → R (e.respond p).1 (f.respond p).1 ∧ (e.respond p).2 = (f.respond p).2)
    (ps : List PortInput) {e f : Engine c} (h : R e f) : e.events ps = f.events ps := by
  induction ps generalizing e f with
  | nil => rfl
  | cons p ps ih =>
    obtain ⟨hnext, hevent⟩ := hkeep e f p h
    rw [Engine.events_cons, Engine.events_cons, hevent, ih hnext]

/-- Rolling a common byte: the byte of age `k` is common if that of age `k - 1` was. -/
theorem RcUnit.recent_roll_congr {r q : RcUnit c} (b : Byte) {k : Nat} (hk : k < c.windowSize)
    (h : ∀ j, j + 1 = k → r.recent j = q.recent j) : (r.roll b).recent k = (q.roll b).recent k := by
  cases k with
  | zero => rw [RcUnit.recent_roll_zero, RcUnit.recent_roll_zero]
  | succ k => rw [RcUnit.recent_roll_succ r b hk, RcUnit.recent_roll_succ q b hk, h k rfl]

/-- Two engines in the same chunk at the same place: they may differ in the bytes before it. -/
structure Engine.SameChunk (e f : Engine c) : Prop where
  inv : e.Inv
  inv' : f.Inv
  curLen : e.curLen = f.curLen
  gOff : e.gOff = f.gOff
  recent : ∀ k, k < c.windowSize → k < e.curLen.toNat → e.rc.recent k = f.rc.recent k

/-- Where the minimum gate opens, a window of at most TooSmallThreshold + 1 bytes lies within the chunk,
so SPLIT is the same (41_chunker.md R109). -/
theorem Engine.SameChunk.closes_eq {e f : Engine c} (h : e.SameChunk f)
    (hwindow : c.windowSize ≤ c.tooSmallThreshold + 1) (b : Byte) : e.closes b = f.closes b := by
  have hsplit : c.tooSmallThreshold < (e.curLen + 1#c.lenW).toNat →
      (e.rc.roll b).split = (f.rc.roll b).split := by
    rw [Engine.incremented_of_lengthHolds h.inv.length]
    intro hgate
    refine (Engine.inv_byte h.inv b).split_eq_of_recent (Engine.inv_byte h.inv' b) fun k hk => ?_
    exact RcUnit.recent_roll_congr b hk fun j hj => h.recent j (by omega) (by omega)
  rw [Bool.eq_iff_iff, Engine.closes, Engine.closes, ← h.curLen, boundaryCondition_iff,
    boundaryCondition_iff]
  exact or_congr_right (and_congr_left fun hgate => by rw [hsplit hgate])

theorem Engine.SameChunk.byte {e f : Engine c} (h : e.SameChunk f)
    (hwindow : c.windowSize ≤ c.tooSmallThreshold + 1) (b : Byte) :
    (e.byte b).1.SameChunk (f.byte b).1 ∧ (e.byte b).2 = (f.byte b).2 := by
  have hinv := Engine.inv_byte h.inv b
  have hinv' := Engine.inv_byte h.inv' b
  have hcloses := h.closes_eq hwindow b
  by_cases hcut : e.closes b = true
  · have hcut' : f.closes b = true := hcloses ▸ hcut
    rw [e.byte_of_closes b hcut] at hinv ⊢
    rw [f.byte_of_closes b hcut'] at hinv' ⊢
    refine ⟨⟨hinv, hinv', rfl, by rw [h.gOff], fun k _ hk => ?_⟩, by rw [h.gOff]⟩
    exact absurd hk (Nat.not_lt_zero k)
  · have hcut' : ¬f.closes b = true := hcloses ▸ hcut
    have hlen := Engine.incremented_of_lengthHolds h.inv.length
    rw [e.byte_of_not_closes b hcut] at hinv ⊢
    rw [f.byte_of_not_closes b hcut'] at hinv' ⊢
    refine ⟨⟨hinv, hinv', by rw [h.curLen], by rw [h.gOff], fun k hk hlt => ?_⟩, rfl⟩
    exact RcUnit.recent_roll_congr b hk fun j hj => h.recent j (by omega) (by rw [hlen] at hlt; omega)

/-- Settles O45: engines in the same, just begun, chunk stay in the same chunk. -/
theorem closedChunksDoNotInfluence : Obligations.ClosedChunksDoNotInfluence := by
  unfold Obligations.ClosedChunksDoNotInfluence
  intro s f ps hwindow he hf hclosed hclosed' hoffset
  have hzero := (s.eng.phase_eq_justClosed_iff).mp hclosed
  have hzero' := (f.phase_eq_justClosed_iff).mp hclosed'
  have hstart : s.eng.SameChunk f := by
    refine ⟨he, hf, BitVec.eq_of_toNat_eq (hzero.trans hzero'.symm), hoffset, fun k _ hk => ?_⟩
    omega
  refine ⟨_, _, run_eq ps s, run_eq ps { s with eng := f }, ?_⟩
  have hevents : s.eng.events ps = f.events ps := by
    refine Engine.events_eq_of_kept (R := Engine.SameChunk) (fun e f p h => ?_) ps hstart
    rcases respond_cases s.cfg p with ⟨hp, -⟩ | ⟨hp, -⟩ | ⟨b, hp, -⟩ <;> rw [hp, hp]
    · exact ⟨⟨Engine.inv_reset, Engine.inv_reset, rfl, rfl, fun _ _ _ => rfl⟩, rfl⟩
    · exact ⟨h, rfl⟩
    · exact h.byte hwindow b
  exact congrArg (fun vs => (s.observed ++ vs).map BitVec.toNat) hevents

/-- At which bytes of a stream an engine closes a chunk, counted from 0: its decisions, without the
offsets it reports them by. -/
def Engine.distances : List Byte → Engine c → List Nat
  | [], _ => []
  | b :: bs, e => (if e.closes b then [0] else []) ++ (Engine.distances bs (e.byte b).1).map (· + 1)

/-- An engine reports each decision by its GOFF at the start plus the distance (41_chunker.md R100). -/
theorem Engine.events_eq_distances (bs : List Byte) (e : Engine c) :
    (e.events (bytePorts bs)).map BitVec.toNat =
      (e.distances bs).map (fun d => (e.gOff.toNat + d) % 2 ^ c.offW) := by
  induction bs generalizing e with
  | nil => rfl
  | cons b bs ih =>
    have hhead : (e.byte b).2.toList.map BitVec.toNat =
        (if e.closes b then [0] else []).map (fun d => (e.gOff.toNat + d) % 2 ^ c.offW) := by
      by_cases hcut : e.closes b = true
      · simp [hcut, e.byte_of_closes b hcut, Nat.mod_eq_of_lt e.gOff.isLt]
      · simp [hcut, e.byte_of_not_closes b hcut]
    have hoffset : (e.byte b).1.gOff.toNat = (e.gOff.toNat + 1) % 2 ^ c.offW := by
      simp [BitVec.toNat_add]
    rw [bytePorts_cons, Engine.events_cons, Engine.respond_command_byte, List.map_append, hhead, ih,
      Engine.distances, List.map_append, List.map_map, hoffset]
    refine congrArg _ (List.map_congr_left fun d _ => ?_)
    simp [Nat.add_assoc, Nat.add_comm 1 d]

/-- The sums after a roll are made of the old sums, the byte and the oldest byte of the window. -/
theorem Engine.SameChunking.roll {e f : Engine c} (h : e.SameChunking f) (b : Byte) :
    (∀ k, k < c.windowSize → (e.rc.roll b).recent k = (f.rc.roll b).recent k) ∧
      (e.rc.roll b).s1 = (f.rc.roll b).s1 ∧ (e.rc.roll b).s2 = (f.rc.roll b).s2 := by
  have hdrop : e.rc.drop = f.rc.drop := by
    rw [RcUnit.drop_eq_recent, RcUnit.drop_eq_recent, h.recent _ (Nat.sub_one_lt c.windowSize_pos.ne')]
  have hs1 : (e.rc.roll b).s1 = (f.rc.roll b).s1 := by
    rw [RcUnit.roll_s1_eq, RcUnit.roll_s1_eq, h.s1, hdrop]
  refine ⟨fun k hk => RcUnit.recent_roll_congr b hk fun j hj => h.recent j (by omega), hs1, ?_⟩
  rw [RcUnit.roll_s2_eq, RcUnit.roll_s2_eq, h.s2, hs1, hdrop]

theorem Engine.SameChunking.closes_eq {e f : Engine c} (h : e.SameChunking f) (b : Byte) :
    e.closes b = f.closes b := by
  obtain ⟨-, -, hs2⟩ := h.roll b
  rw [Engine.closes, Engine.closes, h.curLen, RcUnit.split_congr hs2]

theorem Engine.SameChunking.byte {e f : Engine c} (h : e.SameChunking f) (b : Byte) :
    (e.byte b).1.SameChunking (f.byte b).1 := by
  obtain ⟨hrecent, hs1, hs2⟩ := h.roll b
  refine ⟨hrecent, hs1, hs2, ?_⟩
  have hcloses := h.closes_eq b
  by_cases hcut : e.closes b = true
  · rw [e.byte_of_closes b hcut, f.byte_of_closes b (hcloses ▸ hcut)]
  · rw [e.byte_of_not_closes b hcut, f.byte_of_not_closes b (hcloses ▸ hcut), h.curLen]

theorem Engine.SameChunking.distances_eq {e f : Engine c} (h : e.SameChunking f) (bs : List Byte) :
    e.distances bs = f.distances bs := by
  induction bs generalizing e f with
  | nil => rfl
  | cons b bs ih => rw [Engine.distances, Engine.distances, h.closes_eq b, ih (h.byte b)]

/-- Settles O46: the decisions are the same, and each engine reports them from its own GOFF. -/
theorem sameChunkingShiftsOffsets : Obligations.SameChunkingShiftsOffsets := by
  unfold Obligations.SameChunkingShiftsOffsets
  intro s f ws hsame hstream
  refine ⟨_, _, s.eng.distances (streamBytes ws), runWords_stream hstream s,
    runWords_stream hstream { s with eng := f }, ?_, ?_⟩
  · rw [List.map_append, Engine.events_eq_distances]
  · rw [List.map_append, Engine.events_eq_distances, hsame.distances_eq]

/-- Settles O47: after the byte the windows agree by age, hence the sums, and both CURLEN are 0. -/
theorem commonBoundaryResynchronises : Obligations.CommonBoundaryResynchronises := by
  unfold Obligations.CommonBoundaryResynchronises
  intro s f b he hf hcommon e' f' v v' t u ht ht' hu hu'
  have hrecent : ∀ k, k < s.cfg.windowSize → (s.eng.rc.roll b).recent k = (f.rc.roll b).recent k :=
    fun k hk => RcUnit.recent_roll_congr b hk fun j hj => hcommon j (by omega)
  have hinv := Engine.inv_byte he b
  have hinv' := Engine.inv_byte hf b
  obtain ⟨hs1, hs2⟩ := RcUnit.sums_eq_of_recent hinv.sum hinv'.sum hinv.weightedSum hinv'.weightedSum hrecent
  rw [exec_byte, ht', Host.Outcome.next.injEq, State.mk.injEq] at ht
  rw [exec_byte, hu', Host.Outcome.next.injEq, State.mk.injEq] at hu
  obtain ⟨-, heng, hevent, -⟩ := ht
  obtain ⟨-, heng', hevent', -⟩ := hu
  rw [heq_eq_eq] at heng hevent heng' hevent'
  obtain ⟨-, hlen⟩ := s.eng.byte_of_isSome b (by rw [hevent]; rfl)
  obtain ⟨-, hlen'⟩ := f.byte_of_isSome b (by rw [hevent']; rfl)
  rw [← heng, ← heng']
  exact ⟨hrecent, hs1, hs2, hlen.trans hlen'.symm⟩

end Sys2Proof.Machine
end
